-- ==== Sys2Proof/Word.lean ====
section
/-! DEFINITION. The word types of the hardware (rules R7, R10, R12, R50, R51): bytes, 16-bit words, 12-bit
addresses written in an instruction, and the numbers that name a register, a key or a sprite height. -/

namespace Sys2Proof

/-- An 8-bit value: a general register, a timer, a byte of memory, the immediate `nn` (R10, R15, R16, R21, R51). -/
abbrev Byte := BitVec 8

/-- A 16-bit value: `I`, `pc`, a return address, an instruction word (R12, R13, R14, R50). -/
abbrev Word := BitVec 16

/-- The immediate `nnn`, a 12-bit address as it stands in an instruction word (R51). -/
abbrev Addr12 := BitVec 12

/-- The number of a general register; every value of the 4-bit field names one (R10). -/
abbrev Reg := Fin 16

/-- A key code, 0x0 to 0xF; a larger code cannot be presented (R129). -/
abbrev Key := Fin 16

/-- The row count `n` of `DRW`, 0 to 15 (R51, R112). -/
abbrev Rows := Fin 16

end Sys2Proof
end

