-- ==== Sys2Proof/Syntax.lean ====
section
/-! DEFINITION. The 34 instructions as syntax, one constructor per row of spec/opcode_table.json (rule R54), with
the names by which the decoder rejects a word (rule R56). Every operand's type is exactly the width its field of the
instruction word has (R51). -/

namespace Sys2Proof

/-- The instruction set (R54). Register operands are named as in the table: `x` first, `y` second. -/
inductive Instr where
  /-- `00E0  CLS` (R111) -/
  | cls
  /-- `00EE  RET` (R63) -/
  | ret
  /-- `1nnn  JP nnn` (R64) -/
  | jp (nnn : Addr12)
  /-- `2nnn  CALL nnn` (R65) -/
  | call (nnn : Addr12)
  /-- `3xnn  SE Vx, nn` (R67) -/
  | seImm (x : Reg) (nn : Byte)
  /-- `4xnn  SNE Vx, nn` (R68) -/
  | sneImm (x : Reg) (nn : Byte)
  /-- `5xy0  SE Vx, Vy` (R69) -/
  | seReg (x y : Reg)
  /-- `6xnn  LD Vx, nn` (R76) -/
  | ldImm (x : Reg) (nn : Byte)
  /-- `7xnn  ADD Vx, nn` (R77) -/
  | addImm (x : Reg) (nn : Byte)
  /-- `8xy0  LD Vx, Vy` (R78) -/
  | ldReg (x y : Reg)
  /-- `8xy1  OR Vx, Vy` (R79) -/
  | orReg (x y : Reg)
  /-- `8xy2  AND Vx, Vy` (R80) -/
  | andReg (x y : Reg)
  /-- `8xy3  XOR Vx, Vy` (R81) -/
  | xorReg (x y : Reg)
  /-- `8xy4  ADD Vx, Vy` (R82) -/
  | addReg (x y : Reg)
  /-- `8xy5  SUB Vx, Vy` (R83) -/
  | subReg (x y : Reg)
  /-- `8xy6  SHR Vx, Vy` (R84) -/
  | shr (x y : Reg)
  /-- `8xy7  SUBN Vx, Vy` (R85) -/
  | subnReg (x y : Reg)
  /-- `8xyE  SHL Vx, Vy` (R86) -/
  | shl (x y : Reg)
  /-- `9xy0  SNE Vx, Vy` (R70) -/
  | sneReg (x y : Reg)
  /-- `Annn  LD I, nnn` (R90) -/
  | ldI (nnn : Addr12)
  /-- `Bnnn  JP V0, nnn` (R66) -/
  | jpV0 (nnn : Addr12)
  /-- `Cxnn  RND Vx, nn` (R100) -/
  | rnd (x : Reg) (nn : Byte)
  /-- `Dxyn  DRW Vx, Vy, n` (R112) -/
  | drw (x y : Reg) (n : Rows)
  /-- `Ex9E  SKP Vx` (R104) -/
  | skp (x : Reg)
  /-- `ExA1  SKNP Vx` (R105) -/
  | sknp (x : Reg)
  /-- `Fx07  LD Vx, DT` (R101) -/
  | ldVxDT (x : Reg)
  /-- `Fx0A  LD Vx, K` (R106) -/
  | ldVxK (x : Reg)
  /-- `Fx15  LD DT, Vx` (R102) -/
  | ldDTVx (x : Reg)
  /-- `Fx18  LD ST, Vx` (R103) -/
  | ldSTVx (x : Reg)
  /-- `Fx1E  ADD I, Vx` (R91) -/
  | addI (x : Reg)
  /-- `Fx29  LD F, Vx` (R92) -/
  | ldF (x : Reg)
  /-- `Fx33  LD B, Vx` (R93) -/
  | ldB (x : Reg)
  /-- `Fx55  LD [I], Vx` (R94) -/
  | storeRegs (x : Reg)
  /-- `Fx65  LD Vx, [I]` (R95) -/
  | loadRegs (x : Reg)
deriving DecidableEq, Repr

/-- Why the decoder gives no instruction: one name for each row of the table of illegal words in rule R56, and one
for bytes that do not hold a whole word. -/
inductive Reject where
  /-- 0x0000 - 0x0FFF except 0x00E0 and 0x00EE. -/
  | zeroGroup
  /-- 5xyn with n != 0. -/
  | seLowNibble
  /-- 8xyn with n in 8 .. D or n = F. -/
  | aluSubOp
  /-- 9xyn with n != 0. -/
  | sneLowNibble
  /-- Exnn with nn not 9E and not A1. -/
  | keyGroup
  /-- Fxnn with nn not one of the nine values of R55. -/
  | miscGroup
  /-- Fewer than two bytes: no word can be read. The machine never decodes such bytes, its fetch faults first (R61). -/
  | tooFewBytes
deriving DecidableEq, Repr

end Sys2Proof
end

