-- ==== Sys2Proof/Decode.lean ====
section
/-! DEFINITION. The fields of an instruction word (rule R51), the decoder in the order of rule R55's procedure, total
on any word and on any bytes and rejecting by name (R56), and the encoder written from the formats of rule R52.
That x is bits 11:8, that y is bits 7:4 and the opcode numbers themselves are the spec's D1: see log entry 4. -/

namespace Sys2Proof

/-- `op = w[15:12]`, the group (R51). -/
def opField (w : Word) : Nat := (w.extractLsb' 12 4).toNat
/-- `x = w[11:8]` (R51). -/
def xField (w : Word) : Reg := (w.extractLsb' 8 4).toFin
/-- `y = w[7:4]` (R51). -/
def yField (w : Word) : Reg := (w.extractLsb' 4 4).toFin
/-- `n = w[3:0]` (R51). -/
def nField (w : Word) : Rows := (w.extractLsb' 0 4).toFin
/-- `nn = w[7:0]` (R51). -/
def nnField (w : Word) : Byte := w.extractLsb' 0 8
/-- `nnn = w[11:0]` (R51). -/
def nnnField (w : Word) : Addr12 := w.extractLsb' 0 12

/-- Group 8 of R55: the low nibble selects one of nine operations. -/
def decodeAlu (x y : Reg) (n : Nat) : Except Reject Instr :=
  match n with
  | 0x0 => .ok (.ldReg x y)
  | 0x1 => .ok (.orReg x y)
  | 0x2 => .ok (.andReg x y)
  | 0x3 => .ok (.xorReg x y)
  | 0x4 => .ok (.addReg x y)
  | 0x5 => .ok (.subReg x y)
  | 0x6 => .ok (.shr x y)
  | 0x7 => .ok (.subnReg x y)
  | 0xE => .ok (.shl x y)
  | _ => .error .aluSubOp

/-- Group E of R55: the low byte selects the key skip. -/
def decodeKey (x : Reg) (nn : Nat) : Except Reject Instr :=
  match nn with
  | 0x9E => .ok (.skp x)
  | 0xA1 => .ok (.sknp x)
  | _ => .error .keyGroup

/-- Group F of R55: the low byte selects one of nine operations. -/
def decodeMisc (x : Reg) (nn : Nat) : Except Reject Instr :=
  match nn with
  | 0x07 => .ok (.ldVxDT x)
  | 0x0A => .ok (.ldVxK x)
  | 0x15 => .ok (.ldDTVx x)
  | 0x18 => .ok (.ldSTVx x)
  | 0x1E => .ok (.addI x)
  | 0x29 => .ok (.ldF x)
  | 0x33 => .ok (.ldB x)
  | 0x55 => .ok (.storeRegs x)
  | 0x65 => .ok (.loadRegs x)
  | _ => .error .miscGroup

/-- `Decode(w)` (R55), a total function of the word alone; the rejections together are the spec's `Unknown` (R56).
The last arm is group F, the one value of the 4-bit group that is left. -/
def decodeWord (w : Word) : Except Reject Instr :=
  match opField w with
  | 0x0 => if w = 0x00E0 then .ok .cls else if w = 0x00EE then .ok .ret else .error .zeroGroup
  | 0x1 => .ok (.jp (nnnField w))
  | 0x2 => .ok (.call (nnnField w))
  | 0x3 => .ok (.seImm (xField w) (nnField w))
  | 0x4 => .ok (.sneImm (xField w) (nnField w))
  | 0x5 => if nField w = 0 then .ok (.seReg (xField w) (yField w)) else .error .seLowNibble
  | 0x6 => .ok (.ldImm (xField w) (nnField w))
  | 0x7 => .ok (.addImm (xField w) (nnField w))
  | 0x8 => decodeAlu (xField w) (yField w) (nField w).val
  | 0x9 => if nField w = 0 then .ok (.sneReg (xField w) (yField w)) else .error .sneLowNibble
  | 0xA => .ok (.ldI (nnnField w))
  | 0xB => .ok (.jpV0 (nnnField w))
  | 0xC => .ok (.rnd (xField w) (nnField w))
  | 0xD => .ok (.drw (xField w) (yField w) (nField w))
  | 0xE => decodeKey (xField w) (nnField w).toNat
  | _ => decodeMisc (xField w) (nnField w).toNat

/-- The word whose high byte is at the lower address: fetch is big-endian (R33, R39). -/
def wordOfBytes (hi lo : Byte) : Word := hi ++ lo

/-- Bits 15:8 of a word, the byte at the lower address (R33). -/
def highByte (w : Word) : Byte := w.extractLsb' 8 8

/-- Bits 7:0 of a word, the byte at the higher address (R33). -/
def lowByte (w : Word) : Byte := w.extractLsb' 0 8

/-- The instruction at the front of a byte string and what follows it; every instruction is two bytes (R50, R57). -/
def decodeBytes : List Byte → Except Reject (Instr × List Byte)
  | hi :: lo :: rest =>
    match decodeWord (wordOfBytes hi lo) with
    | .ok i => .ok (i, rest)
    | .error r => .error r
  | _ => .error .tooFewBytes

/-- Format `NNN` (R52). -/
def wordNNN (op : BitVec 4) (nnn : Addr12) : Word := op ++ nnn
/-- Formats `XNN` and `X` (R52). -/
def wordXNN (op : BitVec 4) (x : Reg) (nn : Byte) : Word := wordNNN op (BitVec.ofFin (w := 4) x ++ nn)
/-- Formats `XY` and `XYN` (R52). -/
def wordXYN (op : BitVec 4) (x y : Reg) (n : Rows) : Word :=
  wordXNN op x (BitVec.ofFin (w := 4) y ++ BitVec.ofFin (w := 4) n)

/-- The word of an instruction (R52, R54). -/
def encode : Instr → Word
  | .cls => 0x00E0
  | .ret => 0x00EE
  | .jp nnn => wordNNN 0x1 nnn
  | .call nnn => wordNNN 0x2 nnn
  | .seImm x nn => wordXNN 0x3 x nn
  | .sneImm x nn => wordXNN 0x4 x nn
  | .seReg x y => wordXYN 0x5 x y 0x0
  | .ldImm x nn => wordXNN 0x6 x nn
  | .addImm x nn => wordXNN 0x7 x nn
  | .ldReg x y => wordXYN 0x8 x y 0x0
  | .orReg x y => wordXYN 0x8 x y 0x1
  | .andReg x y => wordXYN 0x8 x y 0x2
  | .xorReg x y => wordXYN 0x8 x y 0x3
  | .addReg x y => wordXYN 0x8 x y 0x4
  | .subReg x y => wordXYN 0x8 x y 0x5
  | .shr x y => wordXYN 0x8 x y 0x6
  | .subnReg x y => wordXYN 0x8 x y 0x7
  | .shl x y => wordXYN 0x8 x y 0xE
  | .sneReg x y => wordXYN 0x9 x y 0x0
  | .ldI nnn => wordNNN 0xA nnn
  | .jpV0 nnn => wordNNN 0xB nnn
  | .rnd x nn => wordXNN 0xC x nn
  | .drw x y n => wordXYN 0xD x y n
  | .skp x => wordXNN 0xE x 0x9E
  | .sknp x => wordXNN 0xE x 0xA1
  | .ldVxDT x => wordXNN 0xF x 0x07
  | .ldVxK x => wordXNN 0xF x 0x0A
  | .ldDTVx x => wordXNN 0xF x 0x15
  | .ldSTVx x => wordXNN 0xF x 0x18
  | .addI x => wordXNN 0xF x 0x1E
  | .ldF x => wordXNN 0xF x 0x29
  | .ldB x => wordXNN 0xF x 0x33
  | .storeRegs x => wordXNN 0xF x 0x55
  | .loadRegs x => wordXNN 0xF x 0x65

/-- The two bytes of an instruction as memory holds them, the high byte first (R33). -/
def encodeBytes (i : Instr) : List Byte := [highByte (encode i), lowByte (encode i)]

/-- The word whose bits are `w`, numbered as spec/opcode_table.json numbers them; bits from `nbits` up are 0. -/
def tableWord (nbits w : Nat) : Word := BitVec.ofNat 16 (w % 2 ^ nbits)

/-- The instruction the decoder reads from the word of a table row, laid out in bytes as memory holds it. -/
def decodeTableWord (nbits w : Nat) : Option Instr :=
  match decodeBytes [highByte (tableWord nbits w), lowByte (tableWord nbits w)] with
  | .ok (i, _) => some i
  | .error _ => none

end Sys2Proof
end

