-- ==== Sys2Proof/Config.lean ====
section
/-! DEFINITION. The fixed parameters of rule R4, the open parameters of rule R5 as one record with the spec's
defaults, and the one free value of the hardware: what the random generator yields in a given state. -/

namespace Sys2Proof.Config

/-- `MEM_SIZE` (R4): the number of bytes of memory. -/
abbrev memSize : Nat := 4096
/-- `FONT_BASE` (R4): the address of the first font byte. -/
abbrev fontBase : Nat := 0x000
/-- `FONT_GLYPH_BYTES` (R4): the bytes of one glyph. -/
abbrev glyphBytes : Nat := 5
/-- `FONT_GLYPHS` times `FONT_GLYPH_BYTES` (R4): the bytes of the font. -/
abbrev fontSize : Nat := 80
/-- `LOAD_ADDR` (R4): the address of the first program byte and the reset value of `pc`. -/
abbrev loadAddr : Nat := 0x200
/-- `ROM_MAX` (R4): the largest ROM, `4096 - 0x200`. -/
abbrev romMax : Nat := 3584
/-- `STACK_DEPTH` (R4): the return addresses the stack holds. -/
abbrev stackDepth : Nat := 16
/-- `DISPLAY_W` (R4): the pixels of a row. -/
abbrev displayW : Nat := 64
/-- `DISPLAY_H` (R4): the rows of the display. -/
abbrev displayH : Nat := 32
/-- `INSTR_BYTES` (R4): the bytes of an instruction. -/
abbrev instrBytes : Nat := 2

/-- `VF`, register 15, which is also the flags register (R11). -/
abbrev vf : Reg := 15

end Sys2Proof.Config

namespace Sys2Proof

/-- The values of the open parameter `SHIFT_SRC` (R5): the register the two shifts read. -/
inductive ShiftSrc where
  | vx
  | vy
deriving DecidableEq, Repr

/-- The two quirks of rule R9, the open parameters an instruction consults while it executes (R5).
They are configuration and no rule writes them; a machine carries the setting it was built with (log entry 3). -/
structure Quirks where
  /-- `SHIFT_SRC`: which register `SHR` and `SHL` read (R84, R86). -/
  shiftSrc : ShiftSrc
  /-- `MEMOP_I_INCREMENT`: whether the register-block transfers add `x + 1` to `I` (R94, R95). -/
  memopIIncrement : Bool
deriving DecidableEq, Repr

/-- The spec's defaults of the two quirks (R5). DESIGN CHOICE (the spec's D3, D4): see log entry 3. -/
def Quirks.default : Quirks := { shiftSrc := .vx, memopIIncrement := false }

/-- The state of the random generator, its type left open by the spec (R5, R20).
DESIGN CHOICE: a number that stands for the state, whatever a generator keeps; see log entry 1. -/
abbrev RngState := Nat

/-- FREE VALUE. `RNG_NEXT` (R5, R100), uninterpreted as the spec has it: the byte drawn and the generator's next state,
a function with no body, so both are free at each execution and no law relates one state to another (U1, D19). It
stands for every generator that is deterministic per seed; see log entry 1. -/
opaque Config.rngNext : RngState → Byte × RngState

/-- The glyphs of the digits 0 to 7, five bytes each, row 0 first (the table of R32). -/
def Config.fontLow : List Byte :=
  [0xF0, 0x90, 0x90, 0x90, 0xF0] ++ [0x20, 0x60, 0x20, 0x20, 0x70] ++
  [0xF0, 0x10, 0xF0, 0x80, 0xF0] ++ [0xF0, 0x10, 0xF0, 0x10, 0xF0] ++
  [0x90, 0x90, 0xF0, 0x10, 0x10] ++ [0xF0, 0x80, 0xF0, 0x10, 0xF0] ++
  [0xF0, 0x80, 0xF0, 0x90, 0xF0] ++ [0xF0, 0x10, 0x20, 0x40, 0x40]

/-- The glyphs of the digits 8 to F (the table of R32). -/
def Config.fontHigh : List Byte :=
  [0xF0, 0x90, 0xF0, 0x90, 0xF0] ++ [0xF0, 0x90, 0xF0, 0x10, 0xF0] ++
  [0xF0, 0x90, 0xF0, 0x90, 0x90] ++ [0xE0, 0x90, 0xE0, 0x90, 0xE0] ++
  [0xF0, 0x80, 0x80, 0x80, 0xF0] ++ [0xE0, 0x90, 0x90, 0x90, 0xE0] ++
  [0xF0, 0x80, 0xF0, 0x80, 0xF0] ++ [0xF0, 0x80, 0xF0, 0x80, 0x80]

/-- The 80 bytes of the default font, the open parameter `FONT` at its default (R5, R32).
PRESUMED (general knowledge, as the spec itself says, D16): see log entry 2. -/
def Config.defaultFont : List Byte := Config.fontLow ++ Config.fontHigh

/-- The open parameters a machine is built with (R5), all but `RNG_NEXT`: that one is the uninterpreted constant
`Config.rngNext`, since a state is plain data and can carry no function (log entry 1). -/
structure Params where
  /-- `SHIFT_SRC` and `MEMOP_I_INCREMENT`. -/
  quirks : Quirks
  /-- `FONT`: the glyph bytes at 0x000 to 0x04F. -/
  font : Vector Byte 80
  /-- `RNG_SEED`: the generator state after reset. -/
  rngSeed : RngState
deriving DecidableEq, Repr

/-- Every open parameter at the spec's default (R5). `RNG_SEED` has none there; DESIGN CHOICE 0 (log entry 1). -/
def Params.default : Params :=
  { quirks := Quirks.default, font := ⟨⟨Config.defaultFont⟩, rfl⟩, rngSeed := 0 }

end Sys2Proof
end

