-- ==== Sys2Proof/Machine/State.lean ====
section
/-! DEFINITION. The state of one machine (10_state.md, rules R10 to R21), the reasons it can halt (R120), the reasons
a step can stop outside the machine, and the state after reset (R24). -/

namespace Sys2Proof.Machine

/-- The reason recorded by a fault (R120, R137). Each is the machine's own halt, a state it enters by a step
(R121), so a fault of the spec is a next state here and never a stop of the model. -/
inductive FaultReason where
  /-- Code 1: decode rejected the fetched word (R62). -/
  | unknownOpcode
  /-- Code 2: `CALL` with sixteen return addresses held (R65). -/
  | stackOverflow
  /-- Code 3: `RET` with none held (R63). -/
  | stackUnderflow
  /-- Code 4: a fetch, `DRW`, `LD B`, `LD [I]` or `LD Vx, [I]` outside memory (R61, R93, R94, R95, R112). -/
  | addressOutOfRange
deriving DecidableEq, Repr

/-- The run state, a tagged value of three shapes (R19). -/
inductive Mode where
  /-- Instructions execute. -/
  | running
  /-- `LD Vx, K` waits for a key press, whose code register `r` receives. -/
  | waitingForKey (r : Reg)
  /-- A fault has happened; no transition leaves this. -/
  | halted (reason : FaultReason)
deriving DecidableEq, Repr

/-- Why a step would stop the model with a fault. It has no constructor, and that is safe: no step of this hardware
stops so, because every fault the spec describes is entered by a step (R121, `Mode.halted`). -/
inductive Fault where
deriving DecidableEq, Repr

/-- Why a step would have no meaning. -/
inductive Refusal where
  /-- The instruction has no meaning yet. No arm of `exec` raises it now; where one did, that would be safe. -/
  | notModelled (mnemonic : String)
deriving DecidableEq, Repr

/-- The memory: the bytes that differ from the reset content, by address, addresses strictly rising (R21, R30).
What an address not listed reads as is `Mem.unlisted`; the canonical form is `Mem.wf` (both in Machine/Memory.lean). -/
abbrev Mem := List Host.Cell

/-- The display: 32 rows of 64 pixels, `disp[y][x]`, lit = true (R17, R110). -/
abbrev Display := Vector (Vector Bool 64) 32

/-- Everything the spec gives one machine (R10 to R21), and the setting of the two quirks it was built with. -/
structure State where
  /-- `V[0]` .. `V[15]` (R10); `V[15]` is also the flags register VF (R11). -/
  v : Vector Byte 16
  /-- `I`, the index register (R12). -/
  i : Word
  /-- `pc`, the program counter (R13). -/
  pc : Word
  /-- `stack[0]` .. `stack[15]`, the slots of the call stack (R14). -/
  stack : Vector Word 16
  /-- `SP`, how many return addresses are held, 0 to 16 (R14). -/
  sp : Fin 17
  /-- `DT`, the delay timer (R15). -/
  dt : Byte
  /-- `ST`, the sound timer (R16). -/
  st : Byte
  /-- `disp`, the display (R17). -/
  disp : Display
  /-- `keys[0]` .. `keys[15]`, true = pressed (R18). -/
  keys : Vector Bool 16
  /-- `mode`, the run state (R19). -/
  mode : Mode
  /-- `rng`, the state of the random generator (R20); log entry 1. -/
  rng : RngState
  /-- `mem`, the memory (R21). -/
  mem : Mem
  /-- `SHIFT_SRC` and `MEMOP_I_INCREMENT` (R5), which no event writes; log entry 3. -/
  quirks : Quirks
deriving DecidableEq, Repr

/-- A display with every pixel off. -/
def Display.clear : Display := Vector.replicate 32 (Vector.replicate 64 false)

/-- The machine right after reset, no program in memory (R24): `LOAD` (R140) is this with the ROM's bytes written at
0x200. `rng` is the one value the spec gives none for (log entry 1). -/
def State.reset : State where
  v := Vector.replicate 16 0
  i := 0
  pc := 0x200
  stack := Vector.replicate 16 0
  sp := 0
  dt := 0
  st := 0
  disp := Display.clear
  keys := Vector.replicate 16 false
  mode := .running
  rng := 0
  mem := []
  quirks := Quirks.default

end Sys2Proof.Machine
end

