-- ==== Sys2Proof/Machine/Memory.lean ====
section
/-! DEFINITION. The memory as a list in one canonical form: what an address not listed reads as, reading and writing
one byte, writing a run of bytes, and the predicate that says the form holds (rules R21, R30, R31, R36 to R38). -/

namespace Sys2Proof.Machine

/-- What an address not listed reads as: the reset content of the memory with no ROM (R24, R31), the font at
0x000 to 0x04F and 0 elsewhere. PRESUMED for the font's bytes (log entry 2), the spec's D17 for the zeros. -/
def Mem.unlisted (a : Nat) : Byte := Config.defaultFont.getD a 0

/-- `mem[a]` (R37). -/
def Mem.read : Mem → Nat → Byte
  | [], a => Mem.unlisted a
  | (b, w) :: rest, a => if b = a then w else Mem.read rest a

/-- Put one entry where it belongs, or nothing where the byte is what an address not listed reads as. -/
def Mem.entry (a : Nat) (v : Byte) (rest : Mem) : Mem :=
  if v = Mem.unlisted a then rest else (a, v) :: rest

/-- `mem[a] <- v` (R38), keeping the canonical form. -/
def Mem.write : Mem → Nat → Byte → Mem
  | [], a, v => Mem.entry a v []
  | (b, w) :: rest, a, v =>
    if a < b then Mem.entry a v ((b, w) :: rest)
    else if a = b then Mem.entry a v rest
    else (b, w) :: Mem.write rest a v

/-- Store a run of bytes at ascending addresses (R33, R47). -/
def Mem.writeAll : Mem → Nat → List Byte → Mem
  | m, _, [] => m
  | m, a, b :: bs => Mem.writeAll (Mem.write m a b) (a + 1) bs

/-- The entries lie at strictly rising valid addresses from `lo` up and none is what its address reads as unlisted. -/
def Mem.wfFrom : Nat → Mem → Bool
  | _, [] => true
  | lo, (a, v) :: rest =>
    decide (lo ≤ a) && decide (a < Config.memSize) && decide (v ≠ Mem.unlisted a) && Mem.wfFrom (a + 1) rest

/-- The canonical form of the memory: equal memories are equal lists. -/
def Mem.wf (m : Mem) : Bool := Mem.wfFrom 0 m

/-- `CheckRange(addr, n)` does not raise (R36); the sum is over the natural numbers and never reduced. -/
def inRange (addr n : Nat) : Bool := n == 0 || decide (addr + n - 1 < Config.memSize)

end Sys2Proof.Machine
end

