-- ==== Sys2Proof/Machine/Ops.lean ====
section
/-! DEFINITION. The named operations over the state: registers, `pc`, the stack, memory through the state, the fetch
(rule R61), and entering a fault (rule R121), the one exception of this hardware. There is no return from it (R122),
so no operation for one stands here. -/

namespace Sys2Proof.Machine

/-- `V[x]` (R8, R10). -/
def State.getV (s : State) (x : Reg) : Byte := s.v[x]

/-- `V[x] <- b` (R8, R10). No register is hard-wired. -/
def State.setV (s : State) (x : Reg) (b : Byte) : State := { s with v := s.v.set x b }

/-- `I <- w` (R12). -/
def State.setI (s : State) (w : Word) : State := { s with i := w }

/-- `pc <- w`, a control transfer; the value is not checked here (R61, R64). -/
def State.jumpTo (s : State) (w : Word) : State := { s with pc := w }

/-- `pc <- pc + 2`: the advance of the fetch and the distance of a taken skip (R61). -/
def State.advance (s : State) : State := s.jumpTo (s.pc + 2)

/-- `if c then skip` (R8, R61). -/
def State.skipIf (c : Bool) (s : State) : State := if c then s.advance else s

/-- `DT <- b` (R15). -/
def State.setDT (s : State) (b : Byte) : State := { s with dt := b }

/-- `ST <- b` (R16). -/
def State.setST (s : State) (b : Byte) : State := { s with st := b }

/-- `mode <- m` (R19). -/
def State.setMode (s : State) (m : Mode) : State := { s with mode := m }

/-- `raise Fault(reason)` (R121): the run state becomes `Halted(reason)` and nothing else changes. -/
def State.raise (s : State) (reason : FaultReason) : State := s.setMode (.halted reason)

/-- `mem[a]` through the state; an instruction reads it only after its whole range passed the check (R37, R47). -/
def State.byteAt (s : State) (a : Nat) : Byte := Mem.read s.mem a

/-- `mem[a .. ] <- bs` through the state, after the range check (R38, R47). -/
def State.storeBytes (s : State) (a : Nat) (bs : List Byte) : State := { s with mem := Mem.writeAll s.mem a bs }

/-- `CheckRange(I, n)` before any write of an instruction (R36, R47): either the fault, which leaves everything as the
fetch left it, or the instruction's effect `t`. -/
def State.ifInRange (s : State) (n : Nat) (t : State) : State :=
  if inRange s.i.toNat n then t else s.raise .addressOutOfRange

/-- Push a return address; the fault of R65 when sixteen are held. -/
def State.push (s : State) (w : Word) : Except FaultReason State :=
  if h : s.sp.val < 16 then
    .ok { s with stack := s.stack.set s.sp.val w, sp := ⟨s.sp.val + 1, by omega⟩ }
  else .error .stackOverflow

/-- Pop a return address; the fault of R63 when none is held. The popped slot keeps its value (R14). -/
def State.pop (s : State) : Except FaultReason (Word × State) :=
  if h : 0 < s.sp.val then
    .ok (s.stack[s.sp.val - 1], { s with sp := ⟨s.sp.val - 1, by omega⟩ })
  else .error .stackUnderflow

/-- The word at `pc`, big-endian (R33, R39). -/
def State.wordAtPc (s : State) : Word := wordOfBytes (s.byteAt s.pc.toNat) (s.byteAt (s.pc.toNat + 1))

/-- `Fetch()` (R61): the range check on both bytes, then the word and the state with `pc` past it. -/
def State.fetch (s : State) : Except FaultReason (Word × State) :=
  if s.pc.toNat + 1 < Config.memSize then .ok (s.wordAtPc, s.advance) else .error .addressOutOfRange

/-- The address at which a word placed for the next step is fetched: `pc` where a fetch there succeeds, else 0x200. -/
def State.fetchSlot (s : State) : Word := if s.pc.toNat + 1 < Config.memSize then s.pc else 0x200

/-- The state with a word stored where the next step fetches, in run state `Running`, so that the step fetches it. -/
def State.placeWord (s : State) (w : Word) : State :=
  ((s.jumpTo s.fetchSlot).setMode .running).storeBytes s.fetchSlot.toNat [highByte w, lowByte w]

end Sys2Proof.Machine
end

