-- ==== Sys2Proof/Machine/Operands.lean ====
section
/-! DEFINITION. The operand forms beyond a plain register: the zero-extended address (rule R53), the source of a shift
(R84, R86), the key a register names (R104), the index-plus-offset address (R96), the glyph address (R92), the
decimal digits (R93) and the register block (R94, R95). -/

namespace Sys2Proof.Machine

/-- `zext_16(nnn)` (R53, R64, R90). -/
def addrOf (nnn : Addr12) : Word := nnn.zeroExtend 16

/-- `nnn + V[0]`, not masked to 12 bits (R66). -/
def State.indexedTarget (s : State) (nnn : Addr12) : Word := addrOf nnn + (s.getV 0).zeroExtend 16

/-- The register a shift reads: `V[x]` or `V[y]` as `SHIFT_SRC` says (R84, R86). -/
def State.shiftOperand (s : State) (x y : Reg) : Byte :=
  match s.quirks.shiftSrc with
  | .vx => s.getV x
  | .vy => s.getV y

/-- `b[3:0]`, a key code or a glyph's digit; the high nibble is ignored (R92, R104). -/
def lowNibble (b : Byte) : Fin 16 := (b.extractLsb' 0 4).toFin

/-- `keys[k]` for the key that `V[x]` names (R104, R105). -/
def State.keyPressed (s : State) (x : Reg) : Bool := s.keys[lowNibble (s.getV x)]

/-- The address of the k-th byte an instruction moves, over the natural numbers (R96). -/
def State.effectiveAddr (s : State) (k : Nat) : Nat := s.i.toNat + k

/-- `FONT_BASE + 5 * d` for the digit `d` in the low nibble (R92). -/
def glyphAddr (b : Byte) : Word := BitVec.ofNat 16 (Config.fontBase + Config.glyphBytes * (lowNibble b).val)

/-- The three decimal digits of a byte, hundreds first (R93). -/
def bcdDigits (b : Byte) : List Byte :=
  [BitVec.ofNat 8 (b.toNat / 100), BitVec.ofNat 8 (b.toNat / 10 % 10), BitVec.ofNat 8 (b.toNat % 10)]

/-- The numbers 0 to `x`, the registers of a block transfer in ascending order (R94, R95). -/
def blockRegs (x : Reg) : List Reg := [0, 1, 2, 3, 4, 5, 6, 7, 8, 9, 10, 11, 12, 13, 14, 15].take (x.val + 1)

/-- `V[0] .. V[x]`, the bytes `LD [I], Vx` stores (R94). -/
def State.blockBytes (s : State) (x : Reg) : List Byte := (blockRegs x).map s.getV

/-- `for k in 0 .. x: V[k] <- mem[I + k]` (R95). -/
def State.loadBlock (s : State) (x : Reg) : State :=
  (blockRegs x).foldl (fun t k => t.setV k (s.byteAt (s.effectiveAddr k.val))) s

/-- `if MEMOP_I_INCREMENT then I <- (I + x + 1) mod 65536` (R94, R95). -/
def State.bumpI (s : State) (x : Reg) : State :=
  if s.quirks.memopIIncrement then s.setI (s.i + BitVec.ofNat 16 (x.val + 1)) else s

end Sys2Proof.Machine
end

