-- ==== Sys2Proof/Machine/Flags.lean ====
section
/-! DEFINITION. The flag an instruction writes into VF (rule R11): the carry, NOT borrow and shifted-out bit of the
arithmetic family, and the order in which result and flag are written (R75). The collision flag of `DRW` is computed
with the drawing, in Display.lean. -/

namespace Sys2Proof.Machine

/-- A flag as VF holds it, always exactly 0 or 1 (R11, R75). -/
def flagByte (f : Bool) : Byte := if f then 1 else 0

/-- The carry out of bit 7 of `a + b` (R82). -/
def carryOut (a b : Byte) : Bool := decide (a.toNat + b.toNat > 255)

/-- NOT borrow of `a - b` (R83, R85). -/
def notBorrow (a b : Byte) : Bool := decide (a.toNat ≥ b.toNat)

/-- The bit a right shift by one loses, `a[0]` (R84). -/
def outRight (a : Byte) : Bool := a.getLsbD 0

/-- The bit a left shift by one loses, `a[7]` (R86). -/
def outLeft (a : Byte) : Bool := a.getLsbD 7

/-- `V[15] <- f` (R11). -/
def State.setFlag (s : State) (f : Bool) : State := s.setV Config.vf (flagByte f)

/-- Write the result to `V[x]`, then the flag to `V[15]`, so that with `x = 15` the flag wins (R75). -/
def State.setResultAndFlag (s : State) (x : Reg) (result : Byte) (f : Bool) : State := (s.setV x result).setFlag f

end Sys2Proof.Machine
end

