-- ==== Sys2Proof/Machine/Display.lean ====
section
/-! DEFINITION. The display engine (44_display.md): the pixels, the XOR blit of a sprite with clipping and collision
(rules R112, R113), `CLS` (R111) and the read-out the host uses (R114). -/

namespace Sys2Proof.Machine

/-- `disp[py][px]` (R17, R110); false outside the display, where there is no pixel. -/
def Display.pixel (d : Display) (py px : Nat) : Bool :=
  if h : py < 32 ∧ px < 64 then (d[py]'h.1)[px]'h.2 else false

/-- `disp[py][px] <- disp[py][px] ^ 1` (R112). -/
def Display.toggle (d : Display) (py px : Nat) : Display :=
  if h : py < 32 ∧ px < 64 then d.set py ((d[py]'h.1).set px (!(d[py]'h.1)[px]'h.2) h.2) h.1 else d

/-- One sprite pixel on the display and the collision so far: clipped past an edge, else a 1 bit toggles, and toggling
a lit pixel is a collision (R112). -/
def blitPixel (py px : Nat) (bit : Bool) (acc : Display × Bool) : Display × Bool :=
  if bit && decide (py ≤ 31) && decide (px ≤ 63) then (acc.1.toggle py px, acc.2 || acc.1.pixel py px) else acc

/-- One sprite row, columns 0 to 7, bit 7 leftmost (R113; the bit order is log entry 4). -/
def blitRow (py x0 : Nat) (b : Byte) (acc : Display × Bool) : Display × Bool :=
  (List.range 8).foldl (fun acc c => blitPixel py (x0 + c) (b.getLsbD (7 - c)) acc) acc

/-- The rows of a sprite from the top, at `y0` and down (R112). -/
def blitRows (x0 : Nat) : Nat → List Byte → Display × Bool → Display × Bool
  | _, [], acc => acc
  | y, b :: bs, acc => blitRows x0 (y + 1) bs (blitRow y x0 b acc)

/-- The `n` sprite bytes at `I` (R113). -/
def State.spriteBytes (s : State) (n : Nat) : List Byte := (List.range n).map fun r => s.byteAt (s.effectiveAddr r)

/-- The start column, `V[x] mod 64` (R112). -/
def startColumn (b : Byte) : Nat := b.toNat % Config.displayW

/-- The start row, `V[y] mod 32` (R112). -/
def startRow (b : Byte) : Nat := b.toNat % Config.displayH

/-- The display and the collision after a sprite of `n` rows is drawn at the place `V[x]`, `V[y]` name (R112). -/
def State.blit (s : State) (x y : Reg) (n : Nat) : Display × Bool :=
  blitRows (startColumn (s.getV x)) (startRow (s.getV y)) (s.spriteBytes n) (s.disp, false)

/-- `disp <- d`. -/
def State.setDisp (s : State) (d : Display) : State := { s with disp := d }

/-- `CLS` (R111). -/
def execCls (s : State) : Host.Outcome State Fault Refusal := .next (s.setDisp Display.clear)

/-- `DRW Vx, Vy, n` (R112): all `n` bytes are range-checked, clipped or not; VF receives the collision last. -/
def execDrw (x y : Reg) (n : Rows) (s : State) : Host.Outcome State Fault Refusal :=
  .next (s.ifInRange n.val ((s.setDisp (s.blit x y n.val).1).setFlag (s.blit x y n.val).2))

end Sys2Proof.Machine
end

