-- ==== Sys2Proof/Machine/Index.lean ====
section
/-! DEFINITION. The index-register and memory instructions (42_index_and_memory.md, rules R90 to R96). The three that
touch memory check their whole range before any write (R36, R47). -/

namespace Sys2Proof.Machine

/-- `LD I, nnn` (R90). -/
def execLdI (nnn : Addr12) (s : State) : Host.Outcome State Fault Refusal := .next (s.setI (addrOf nnn))

/-- `ADD I, Vx` (R91): modulo 65536, no flag. -/
def execAddI (x : Reg) (s : State) : Host.Outcome State Fault Refusal :=
  .next (s.setI (s.i + (s.getV x).zeroExtend 16))

/-- `LD F, Vx` (R92). -/
def execLdF (x : Reg) (s : State) : Host.Outcome State Fault Refusal := .next (s.setI (glyphAddr (s.getV x)))

/-- `LD B, Vx` (R93): three bytes, hundreds first; `I` is unchanged whatever the quirks. -/
def execLdB (x : Reg) (s : State) : Host.Outcome State Fault Refusal :=
  .next (s.ifInRange 3 (s.storeBytes (s.effectiveAddr 0) (bcdDigits (s.getV x))))

/-- `LD [I], Vx` (R94). -/
def execStoreRegs (x : Reg) (s : State) : Host.Outcome State Fault Refusal :=
  .next (s.ifInRange (x.val + 1) ((s.storeBytes (s.effectiveAddr 0) (s.blockBytes x)).bumpI x))

/-- `LD Vx, [I]` (R95). -/
def execLoadRegs (x : Reg) (s : State) : Host.Outcome State Fault Refusal :=
  .next (s.ifInRange (x.val + 1) ((s.loadBlock x).bumpI x))

end Sys2Proof.Machine
end

