-- ==== Sys2Proof/Machine/TimersKeys.lean ====
section
/-! DEFINITION. The random, timer and keypad instructions (43_random_timers_keys.md, rules R100 to R106). -/

namespace Sys2Proof.Machine

/-- `(r, rng) <- RNG_NEXT(rng)` (R100): the byte drawn and the state with the generator advanced. -/
def State.draw (s : State) : Byte × State :=
  ((Config.rngNext s.rng).1, { s with rng := (Config.rngNext s.rng).2 })

/-- `RND Vx, nn` (R100); the byte drawn is the free value of log entry 1. -/
def execRnd (x : Reg) (nn : Byte) (s : State) : Host.Outcome State Fault Refusal :=
  .next (s.draw.2.setV x (s.draw.1 &&& nn))

/-- `LD Vx, DT` (R101). -/
def execLdVxDT (x : Reg) (s : State) : Host.Outcome State Fault Refusal := .next (s.setV x s.dt)

/-- `LD DT, Vx` (R102). -/
def execLdDTVx (x : Reg) (s : State) : Host.Outcome State Fault Refusal := .next (s.setDT (s.getV x))

/-- `LD ST, Vx` (R103). -/
def execLdSTVx (x : Reg) (s : State) : Host.Outcome State Fault Refusal := .next (s.setST (s.getV x))

/-- `SKP Vx` (R104). -/
def execSkp (x : Reg) (s : State) : Host.Outcome State Fault Refusal := .next (s.skipIf (s.keyPressed x))

/-- `SKNP Vx` (R105). -/
def execSknp (x : Reg) (s : State) : Host.Outcome State Fault Refusal := .next (s.skipIf (!s.keyPressed x))

/-- `LD Vx, K` (R106): the wait begins; the KEY event ends it and writes the register. -/
def execLdVxK (x : Reg) (s : State) : Host.Outcome State Fault Refusal := .next (s.setMode (.waitingForKey x))

end Sys2Proof.Machine
end

