-- ==== Sys2Proof/Machine/Step.lean ====
section
/-! DEFINITION. The STEP event (rules R60 to R62). -/

namespace Sys2Proof.Machine

/-- STEP (R60): nothing while halted or waiting for a key; otherwise fetch, decode, execute, each fault entered as
R121 says. -/
def step (s : State) : Host.Outcome State Fault Refusal :=
  match s.mode with
  | .halted _ => .next s
  | .waitingForKey _ => .next s
  | .running =>
    match s.fetch with
    | .error r => .next (s.raise r)
    | .ok (w, t) =>
      match decodeWord w with
      | .error _ => .next (t.raise .unknownOpcode)
      | .ok i => exec i t

/-- The state with the table word `w` stored where the next step fetches, so that that step runs exactly it. It
stands for LOAD, by which a program comes into memory (log entry 5). -/
def State.withFetchWord (s : State) (nbits w : Nat) : State := s.placeWord (tableWord nbits w)

end Sys2Proof.Machine
end

