-- ==== Sys2Proof/Machine/Events.lean ====
section
/-! DEFINITION. What the host does to the machine and what it can read (60_exceptions.md, 70_reset_and_hazards.md):
the events TICK (rule R127), KEY (R129), RUN (R131) beside STEP, the constructor LOAD (R140, R141), and the outputs
`halted`, `haltReason`, `BUZZ` and `Render` (R26, R114, R128). -/

namespace Sys2Proof.Machine

/-- One timer under a TICK: down by one while non-zero, and it stops at 0 (R127). -/
def countDown (b : Byte) : Byte := if b = 0 then 0 else b - 1

/-- TICK (R127): both timers count, in `Running` and in a key wait; nothing when halted. -/
def tick (s : State) : State :=
  match s.mode with
  | .halted _ => s
  | .running => (s.setDT (countDown s.dt)).setST (countDown s.st)
  | .waitingForKey _ => (s.setDT (countDown s.dt)).setST (countDown s.st)

/-- `keys[code] <- pressed` (R129). -/
def State.setKey (s : State) (code : Key) (pressed : Bool) : State := { s with keys := s.keys.set code pressed }

/-- The code of a key as a byte, zero-extended (R130). -/
def keyByte (code : Key) : Byte := BitVec.ofNat 8 code.val

/-- The end of a key wait by a press (R129, R130). -/
def State.endWait (s : State) (code : Key) : State :=
  match s.mode with
  | .waitingForKey r => (s.setV r (keyByte code)).setMode .running
  | .running => s
  | .halted _ => s

/-- KEY(code, pressed) (R129): the key state in every run state; a press ends a key wait. -/
def key (code : Key) (pressed : Bool) (s : State) : State :=
  if pressed then (s.setKey code pressed).endWait code else s.setKey code pressed

/-- The STEPs of a RUN: up to `k`, stopping when the machine is no longer `Running` (R131). -/
def runSteps : Nat → State → Host.Outcome State Fault Refusal
  | 0, s => .next s
  | k + 1, s =>
    match s.mode with
    | .halted _ => .next s
    | .waitingForKey _ => .next s
    | .running =>
      match step s with
      | .next t => runSteps k t
      | .fault r => .fault r
      | .refused r => .refused r

/-- TICK at the end of a RUN (R131). -/
def thenTick : Host.Outcome State Fault Refusal → Host.Outcome State Fault Refusal
  | .next t => .next (tick t)
  | .fault r => .fault r
  | .refused r => .refused r

/-- RUN(maxCycles) (R131): nothing when halted; else the STEPs, then one TICK. Its result is `State.halted` of the
state it leaves. -/
def run (maxCycles : BitVec 32) (s : State) : Host.Outcome State Fault Refusal :=
  match s.mode with
  | .halted _ => .next s
  | .running => thenTick (runSteps maxCycles.toNat s)
  | .waitingForKey _ => thenTick (runSteps maxCycles.toNat s)

/-- The events that reach an existing machine (R6); each is atomic and the host chooses their order (R133). -/
inductive Event where
  | step
  | tick
  | key (code : Key) (pressed : Bool)
  | run (maxCycles : BitVec 32)
deriving DecidableEq, Repr

/-- One event (R6). -/
def event (e : Event) (s : State) : Host.Outcome State Fault Refusal :=
  match e with
  | .step => step s
  | .tick => .next (tick s)
  | .key code pressed => .next (key code pressed s)
  | .run maxCycles => run maxCycles s

/-- A schedule of events, one after the other (R133). -/
def events : List Event → State → Host.Outcome State Fault Refusal
  | [], s => .next s
  | e :: es, s =>
    match event e s with
    | .next t => events es t
    | .fault r => .fault r
    | .refused r => .refused r

/-- Why LOAD builds no machine (R141). -/
inductive LoadError where
  | tooLarge
deriving DecidableEq, Repr

/-- The memory LOAD builds: the font at 0x000, then the ROM at 0x200, over zeros (R140). -/
def loadedMem (font rom : List Byte) : Mem :=
  Mem.writeAll (Mem.writeAll [] Config.fontBase font) Config.loadAddr rom

/-- LOAD(rom) (R140, R141) with the open parameters of R5: a machine in its reset state with the ROM in memory, or
the error. -/
def load (p : Params) (rom : List Byte) : Except LoadError State :=
  if rom.length > Config.romMax then .error .tooLarge
  else .ok { State.reset with quirks := p.quirks, rng := p.rngSeed, mem := loadedMem p.font.toList rom }

/-- The output `halted` (R26). -/
def State.halted (s : State) : Bool :=
  match s.mode with
  | .halted _ => true
  | .running => false
  | .waitingForKey _ => false

/-- The output `haltReason` (R26): none when not halted. -/
def State.haltReason (s : State) : Option FaultReason :=
  match s.mode with
  | .halted r => some r
  | .running => none
  | .waitingForKey _ => none

/-- The numeric code of a reason (R120; the numbers are the spec's D12). -/
def FaultReason.code : FaultReason → Nat
  | .unknownOpcode => 1
  | .stackOverflow => 2
  | .stackUnderflow => 3
  | .addressOutOfRange => 4

/-- `haltReason` as a code, 0 for none (R120). -/
def State.haltCode (s : State) : Nat :=
  match s.haltReason with
  | some r => r.code
  | none => 0

/-- The output `BUZZ = (ST > 0)` (R128). -/
def State.buzz (s : State) : Bool := decide (s.st.toNat > 0)

/-- A colour of the read-out (R114). -/
structure Colour where
  red : Byte
  green : Byte
  blue : Byte
deriving DecidableEq, Repr

/-- The four bytes of one pixel, R, G, B and the alpha 255 (R114; the layout is the spec's D26). -/
def pixelBytes (off on : Colour) (lit : Bool) : List Byte :=
  let c := if lit then on else off
  [c.red, c.green, c.blue, 255]

/-- `Render(off, on)` (R114): row-major, `x` fastest, four bytes a pixel; it only reads the display. -/
def State.render (s : State) (off on : Colour) : List Byte :=
  s.disp.toList.flatMap fun row => row.toList.flatMap (pixelBytes off on)

end Sys2Proof.Machine
end

