-- ==== Sys2Proof/Safety.lean ====
section
/-! DEFINITION. What claims are said in terms of: the invariant of rule R25, the registers an instruction names as
destinations, the instructions that write each other piece of state, the three settled conditions of rule R148, and
the description of a drawing pixel by pixel that the blit is compared with (R112). -/

namespace Sys2Proof.Machine

/-- R25 (c): `pc <= 0x10FE`. -/
abbrev State.PcBounded (s : State) : Prop := s.pc.toNat ≤ 0x10FE

/-- R25 (d): every live stack entry is `<= 0x1000` and `>= 2`. -/
abbrev State.StackBounded (s : State) : Prop :=
  ∀ k : Fin 16, k.val < s.sp.val → 2 ≤ s.stack[k].toNat ∧ s.stack[k].toNat ≤ 0x1000

/-- The invariant every event keeps: R25 (c) and (d), and the memory in its canonical form. The parts (a), (b), (e)
and (f) of R25 hold by the types of the fields. -/
abbrev State.Inv (s : State) : Prop := s.mem.wf = true ∧ s.PcBounded ∧ s.StackBounded

/-- The general registers an instruction names as its destinations, the flags register aside (R10, R11). -/
def destRegs : Instr → List Reg
  | .ldImm x _ | .addImm x _ | .ldReg x _ | .orReg x _ | .andReg x _ | .xorReg x _ => [x]
  | .addReg x _ | .subReg x _ | .shr x _ | .subnReg x _ | .shl x _ => [x]
  | .rnd x _ | .ldVxDT x => [x]
  | .loadRegs x => blockRegs x
  | .cls | .ret | .jp _ | .call _ | .seImm _ _ | .sneImm _ _ | .seReg _ _ | .sneReg _ _ | .ldI _ | .jpV0 _ => []
  | .drw _ _ _ | .skp _ | .sknp _ | .ldVxK _ | .ldDTVx _ | .ldSTVx _ | .addI _ | .ldF _ | .ldB _ | .storeRegs _ => []

/-- The six instructions that write a flag into VF as a side effect (R11). -/
def writesFlag : Instr → Bool
  | .addReg _ _ | .subReg _ _ | .shr _ _ | .subnReg _ _ | .shl _ _ | .drw _ _ _ => true
  | .cls | .ret | .jp _ | .call _ | .seImm _ _ | .sneImm _ _ | .seReg _ _ | .sneReg _ _ | .ldI _ | .jpV0 _ => false
  | .ldImm _ _ | .addImm _ _ | .ldReg _ _ | .orReg _ _ | .andReg _ _ | .xorReg _ _ | .rnd _ _ | .ldVxDT _ => false
  | .skp _ | .sknp _ | .ldVxK _ | .ldDTVx _ | .ldSTVx _ | .addI _ | .ldF _ | .ldB _ | .storeRegs _ | .loadRegs _ =>
    false

/-- R148 (1), HALTED. -/
abbrev State.IsHalted (s : State) : Prop := ∃ r, s.mode = .halted r

/-- R148 (2), SPINNING: running, and the instruction at `pc` is `JP pc`. It can be fetched, so both its bytes lie in
memory: DEDUCED, since at `pc = 0xFFF` no instruction can be fetched (log entry 6). -/
abbrev State.Spinning (s : State) : Prop :=
  s.mode = .running ∧ s.pc.toNat + 1 < Config.memSize ∧ s.wordAtPc = 0x1000 ||| s.pc

/-- R148 (3), WAITING. -/
abbrev State.Waiting (s : State) : Prop := ∃ r, s.mode = .waitingForKey r

/-- The bit the sprite of a `DRW` has for the display's pixel (py, px), false outside the sprite: the sprite pixel in
column `px - x0` of row `py - y0`, bit 7 of its byte leftmost (R112, R113). -/
def State.spriteCovers (s : State) (x y : Reg) (n : Rows) (py px : Nat) : Bool :=
  let x0 := (s.getV x).toNat % 64
  let y0 := (s.getV y).toNat % 32
  decide (y0 ≤ py ∧ py < y0 + n.val ∧ x0 ≤ px ∧ px < x0 + 8) &&
    (s.byteAt (s.i.toNat + (py - y0))).getLsbD (7 - (px - x0))

/-- An event that is no key press: what R130 lists as leaving a key wait as it is. -/
def Event.noPress : Event → Bool
  | .step | .tick | .run _ => true
  | .key _ pressed => !pressed

/-- A straight run of instructions, each executed on the state the one before leaves. -/
def execAll : List Instr → State → Host.Outcome State Fault Refusal
  | [], s => .next s
  | i :: is, s =>
    match exec i s with
    | .next t => execAll is t
    | .fault r => .fault r
    | .refused r => .refused r

/-- FRAME: every byte of memory reads as before. -/
def SameBytes (s t : State) : Prop := ∀ a, t.byteAt a = s.byteAt a

/-- FRAME: every byte of memory outside the `n` bytes at `addr` reads as before. -/
def SameBytesOutside (addr n : Nat) (s t : State) : Prop := ∀ a, a < addr ∨ addr + n ≤ a → t.byteAt a = s.byteAt a

/-- FRAME: every general register outside the list reads as before. -/
def SameRegsBut (rs : List Reg) (s t : State) : Prop := ∀ r, r ∉ rs → t.getV r = s.getV r

/-- FRAME: nothing but the general registers differs. -/
def OnlyRegs (s t : State) : Prop := t = { s with v := t.v } ∧ SameBytes s t

/-- FRAME: nothing but `pc` differs. -/
def OnlyPc (s t : State) : Prop := t = { s with pc := t.pc } ∧ SameBytes s t

/-- FRAME: nothing but `I` differs. -/
def OnlyIndex (s t : State) : Prop := t = { s with i := t.i } ∧ SameBytes s t

/-- R121, what entering a fault leaves: the run state `Halted(reason)`, everything else as before. -/
def FaultEntered (reason : FaultReason) (s t : State) : Prop := t = { s with mode := .halted reason } ∧ SameBytes s t

end Sys2Proof.Machine
end

