-- ==== Sys2Proof/Certificates/Slice0/Obligations.lean ====
section
/-! DEFINITION. The statements for the provers, from the numbered rules of spec/. Where a statement rests on a choice of
the model or on one the spec marks as its own, its docstring names the log entry or the decision (D<k>). A meaning
runs on the state after the fetch, so `s.pc` is the instruction's address plus 2 in every statement about `exec`
(R61). -/

open Sys2Proof Sys2Proof.Machine

/-! ## Encoding -/

/-- Decoding the word of an instruction gives the instruction back, whatever its operands (R51, R52, R55; the
numbers are the spec's D1, log entry 4). -/
def Obligations.DecodeEncodeAllInstructions : Prop :=
  ∀ i : Instr, decodeWord (encode i) = .ok i

/-- A word that decodes is the word of its instruction: no bit of a legal word is ignored (R55, D2). -/
def Obligations.EncodeOfDecodedWord : Prop :=
  ∀ (w : Word) (i : Instr), decodeWord w = .ok i → encode i = w

/-- R54: the decoder, written from R55's procedure, selects the one row of the opcode table with `w & mask = match`,
no word is selected by two rows, and a rejected word is selected by none. The table's numbers are the spec's D1 (log
entry 4). -/
def Obligations.DecodeAgreesWithOpcodeTable : Prop :=
  opcodeTable.length = 34 ∧
  (∀ (w : Word) (r q : OpcodeRow), r ∈ opcodeTable → q ∈ opcodeTable → r.selects w → q.selects w → r = q) ∧
  (∀ (w : Word) (i : Instr), decodeWord w = .ok i → i.row ∈ opcodeTable ∧ i.row.selects w = true) ∧
  (∀ (w : Word) (e : Reject), decodeWord w = .error e → wellFormedWord w = false)

/-- The illegal words are exactly those of R56's table, each class under its name (the spec's D1, D2). -/
def Obligations.IllegalWordsAreRejectedByClass : Prop :=
  ∀ w : Word,
    (decodeWord w = .error .zeroGroup ↔ w.toNat < 0x1000 ∧ w.toNat ≠ 0x00E0 ∧ w.toNat ≠ 0x00EE) ∧
    (decodeWord w = .error .seLowNibble ↔ w.toNat / 4096 = 0x5 ∧ w.toNat % 16 ≠ 0) ∧
    (decodeWord w = .error .aluSubOp ↔
      w.toNat / 4096 = 0x8 ∧ (8 ≤ w.toNat % 16 ∧ w.toNat % 16 ≤ 0xD ∨ w.toNat % 16 = 0xF)) ∧
    (decodeWord w = .error .sneLowNibble ↔ w.toNat / 4096 = 0x9 ∧ w.toNat % 16 ≠ 0) ∧
    (decodeWord w = .error .keyGroup ↔ w.toNat / 4096 = 0xE ∧ w.toNat % 256 ≠ 0x9E ∧ w.toNat % 256 ≠ 0xA1) ∧
    (decodeWord w = .error .miscGroup ↔ w.toNat / 4096 = 0xF ∧
      w.toNat % 256 ∉ [0x07, 0x0A, 0x15, 0x18, 0x1E, 0x29, 0x33, 0x55, 0x65]) ∧
    decodeWord w ≠ .error .tooFewBytes

/-- Words of the spec's vectors (95_test_vectors.md 2.1), one or more per family, decode as listed there (the
spec's D1, log entry 4). -/
def Obligations.SampleWordsDecode : Prop :=
  decodeWord 0x00E0 = .ok .cls ∧ decodeWord 0x00EE = .ok .ret ∧ decodeWord 0x1ABC = .ok (.jp 0xABC) ∧
  decodeWord 0x3A7F = .ok (.seImm 0xA 0x7F) ∧ decodeWord 0x812E = .ok (.shl 1 2) ∧
  decodeWord 0xD015 = .ok (.drw 0 1 5) ∧ decodeWord 0xE19E = .ok (.skp 1) ∧
  decodeWord 0xFF65 = .ok (.loadRegs 0xF) ∧ decodeWord 0x0123 = .error .zeroGroup

/-- An instruction in memory is its two bytes, the high byte first, and what follows it is left (R33, R50;
the numbers are the spec's D1). -/
def Obligations.DecodeBytesOfEncodedInstruction : Prop :=
  ∀ (i : Instr) (rest : List Byte), decodeBytes (encodeBytes i ++ rest) = .ok (i, rest)

/-! ## The step cycle -/

/-- R61, R39: the fetch faults when `pc + 1 >= 4096`; otherwise it reads the word big-endian at `pc` and adds 2 to
`pc`, without a wrap, changing nothing else (the spec's D7, D8). -/
def Obligations.FetchReadsBigEndianAndAdvances : Prop :=
  ∀ s : State,
    (4096 ≤ s.pc.toNat + 1 → s.fetch = .error .addressOutOfRange) ∧
    (s.pc.toNat + 1 < 4096 → ∃ w t, s.fetch = .ok (w, t) ∧
      w.toNat = (s.byteAt s.pc.toNat).toNat * 256 + (s.byteAt (s.pc.toNat + 1)).toNat ∧
      t.pc.toNat = s.pc.toNat + 2 ∧ OnlyPc s t)

/-- A STEP in `Running` whose fetch succeeds and whose word decodes is the instruction executed on the state with
`pc` two further (R60 to R62; the advance is the spec's D7). -/
def Obligations.StepRunsDecodedInstruction : Prop :=
  ∀ (s : State) (w : Word) (i : Instr), s.mode = .running → s.pc.toNat + 1 < 4096 →
    w.toNat = (s.byteAt s.pc.toNat).toNat * 256 + (s.byteAt (s.pc.toNat + 1)).toNat →
    decodeWord w = .ok i → step s = exec i { s with pc := s.pc + 2 }

/-- A STEP in `Running` enters the fetch fault with `pc` unchanged, and the fault of an illegal word with `pc` two
further (R56, R61, R62, R121; the spec's D2, D7, D8, D11). -/
def Obligations.StepEntersFetchAndDecodeFaults : Prop :=
  ∀ s : State, s.mode = .running →
    (4096 ≤ s.pc.toNat + 1 → ∃ t, step s = .next t ∧ FaultEntered .addressOutOfRange s t) ∧
    (s.pc.toNat + 1 < 4096 → wellFormedWord s.wordAtPc = false →
      ∃ t, step s = .next t ∧ FaultEntered .unknownOpcode { s with pc := s.pc + 2 } t)

/-- STEP does nothing in `Halted` and in a key wait (R60). -/
def Obligations.StepDoesNothingUnlessRunning : Prop :=
  ∀ s : State, s.mode ≠ .running → step s = .next s

/-- STEP never changes the keys, and changes `DT` and `ST` only through `LD DT, Vx` and `LD ST, Vx` (R60). -/
def Obligations.StepLeavesTimersAndKeys : Prop :=
  ∀ s t : State, step s = .next t →
    t.keys = s.keys ∧
    (t.dt ≠ s.dt → ∃ x, decodeWord s.wordAtPc = .ok (.ldDTVx x)) ∧
    (t.st ≠ s.st → ∃ x, decodeWord s.wordAtPc = .ok (.ldSTVx x))

/-- Every STEP, from every state, ends in a next state: each fault of the spec is a state of the machine (R121; log
entry 7) and no instruction is refused. -/
def Obligations.StepAlwaysAnswersNext : Prop :=
  ∀ s : State, ∃ t, step s = .next t

/-- Placing an instruction's table word makes the very next STEP execute exactly it (the model's `withFetchWord`, log
entry 5). The premise is the memory part of the invariant that EventsKeepInvariant states. -/
def Obligations.PlacedWordRunsNext : Prop :=
  ∀ (s : State) (i : Instr), s.mem.wf = true →
    step (s.withFetchWord 16 (encode i).toNat) = exec i (s.withFetchWord 16 (encode i).toNat).advance

/-! ## Control transfer -/

/-- R63: `RET` takes the top return address, or enters `StackUnderflow` when none is held (that
the popped slot keeps its value and SP counts entries is the spec's D10 and log entry 9, that a fault changes nothing
else D11, log entry 10). -/
def Obligations.ReturnPopsOrUnderflows : Prop :=
  ∀ s : State,
    (∀ k : Fin 16, s.sp.val = k.val + 1 → ∃ t, exec .ret s = .next t ∧
      t.pc = s.stack[k] ∧ t.sp.val = k.val ∧ t = { s with pc := t.pc, sp := t.sp } ∧ SameBytes s t) ∧
    (s.sp = 0 → ∃ t, exec .ret s = .next t ∧ FaultEntered .stackUnderflow s t)

/-- R65: `CALL` pushes the address after it and jumps, or enters `StackOverflow` when sixteen are held
(the value pushed is the spec's D7, the layout D10, that a fault changes nothing else D11). -/
def Obligations.CallPushesOrOverflows : Prop :=
  ∀ (nnn : Addr12) (s : State),
    (∀ k : Fin 16, s.sp.val = k.val → ∃ t, exec (.call nnn) s = .next t ∧
      t.stack[k] = s.pc ∧ (∀ j : Fin 16, j ≠ k → t.stack[j] = s.stack[j]) ∧ t.sp.val = k.val + 1 ∧
      t.pc.toNat = nnn.toNat ∧ t = { s with pc := t.pc, sp := t.sp, stack := t.stack } ∧ SameBytes s t) ∧
    (s.sp = 16 → ∃ t, exec (.call nnn) s = .next t ∧ FaultEntered .stackOverflow s t)

/-- A `RET` right after a `CALL` that found room resumes at the instruction after the `CALL`, at the old depth and
with every entry that was held still in place (the spec's D7, D10). -/
def Obligations.ReturnResumesAfterCall : Prop :=
  ∀ (nnn : Addr12) (s : State), s.sp.val < 16 → ∃ t, execAll [.call nnn, .ret] s = .next t ∧
    t.pc = s.pc ∧ t.sp = s.sp ∧ (∀ j : Fin 16, j.val < s.sp.val → t.stack[j] = s.stack[j]) ∧
    t = { s with stack := t.stack }

/-- Calls nest until sixteen addresses are held: each keeps the entries below it, and the next one enters
`StackOverflow` with every entry intact (R65, DOC1's stack discipline; the layout is the
spec's D10, that a fault changes nothing else D11). -/
def Obligations.CallsNestSixteenDeep : Prop :=
  ∀ (targets : List Addr12) (s : State), s.sp.val + targets.length ≤ 16 →
    ∃ t, execAll (targets.map Instr.call) s = .next t ∧ t.sp.val = s.sp.val + targets.length ∧
      t.mode = s.mode ∧ (∀ j : Fin 16, j.val < s.sp.val → t.stack[j] = s.stack[j]) ∧
      (s.sp.val + targets.length = 16 → ∀ nnn, ∃ u, exec (.call nnn) t = .next u ∧
        FaultEntered .stackOverflow t u)

/-- R64, R66: `JP nnn` goes to `nnn`; `JP V0, nnn` goes to the sum, not masked to 12 bits (the spec's D31). -/
def Obligations.JumpsSetPc : Prop :=
  ∀ (nnn : Addr12) (s : State),
    (∃ t, exec (.jp nnn) s = .next t ∧ t.pc.toNat = nnn.toNat ∧ OnlyPc s t) ∧
    (∃ t, exec (.jpV0 nnn) s = .next t ∧ t.pc.toNat = nnn.toNat + (s.getV 0).toNat ∧ OnlyPc s t)

/-- R67 to R70: the four compare-and-skip instructions add 2 to `pc` when their condition holds and change nothing
else. -/
def Obligations.ComparesSkipOneInstruction : Prop :=
  ∀ (x y : Reg) (nn : Byte) (s : State),
    (∃ t, exec (.seImm x nn) s = .next t ∧
      t.pc = (if s.getV x = nn then s.pc + 2 else s.pc) ∧ OnlyPc s t) ∧
    (∃ t, exec (.sneImm x nn) s = .next t ∧
      t.pc = (if s.getV x = nn then s.pc else s.pc + 2) ∧ OnlyPc s t) ∧
    (∃ t, exec (.seReg x y) s = .next t ∧
      t.pc = (if s.getV x = s.getV y then s.pc + 2 else s.pc) ∧ OnlyPc s t) ∧
    (∃ t, exec (.sneReg x y) s = .next t ∧
      t.pc = (if s.getV x = s.getV y then s.pc else s.pc + 2) ∧ OnlyPc s t)

/-- R104, R105: `SKP` and `SKNP` test the key the low nibble of `V[x]` names. -/
def Obligations.KeySkipsTestLowNibble : Prop :=
  ∀ (x : Reg) (k : Key) (s : State), (s.getV x).toNat % 16 = k.val →
    (∃ t, exec (.skp x) s = .next t ∧ t.pc = (if s.keys[k] = true then s.pc + 2 else s.pc) ∧ OnlyPc s t) ∧
    (∃ t, exec (.sknp x) s = .next t ∧ t.pc = (if s.keys[k] = true then s.pc else s.pc + 2) ∧ OnlyPc s t)

/-! ## Arithmetic and logic -/

/-- R76, R78: the two loads of a register. -/
def Obligations.LoadsWriteDestination : Prop :=
  ∀ (x y : Reg) (nn : Byte) (s : State),
    (∃ t, exec (.ldImm x nn) s = .next t ∧ t.getV x = nn ∧ SameRegsBut [x] s t ∧ OnlyRegs s t) ∧
    (∃ t, exec (.ldReg x y) s = .next t ∧ t.getV x = s.getV y ∧ SameRegsBut [x] s t ∧ OnlyRegs s t)

/-- R77: the immediate add wraps modulo 256 and writes no flag. -/
def Obligations.AddImmediateWrapsWithoutFlag : Prop :=
  ∀ (x : Reg) (nn : Byte) (s : State), ∃ t, exec (.addImm x nn) s = .next t ∧
    (t.getV x).toNat = ((s.getV x).toNat + nn.toNat) % 256 ∧ SameRegsBut [x] s t ∧ OnlyRegs s t

/-- R79 to R81: OR, AND and XOR bit by bit, VF unchanged unless it is the destination. -/
def Obligations.LogicIsBitwiseWithoutFlag : Prop :=
  ∀ (x y : Reg) (s : State),
    (∃ t, exec (.orReg x y) s = .next t ∧
      (∀ k, (t.getV x).getLsbD k = ((s.getV x).getLsbD k || (s.getV y).getLsbD k)) ∧
      SameRegsBut [x] s t ∧ OnlyRegs s t) ∧
    (∃ t, exec (.andReg x y) s = .next t ∧
      (∀ k, (t.getV x).getLsbD k = ((s.getV x).getLsbD k && (s.getV y).getLsbD k)) ∧
      SameRegsBut [x] s t ∧ OnlyRegs s t) ∧
    (∃ t, exec (.xorReg x y) s = .next t ∧
      (∀ k, (t.getV x).getLsbD k = ((s.getV x).getLsbD k ^^ (s.getV y).getLsbD k)) ∧
      SameRegsBut [x] s t ∧ OnlyRegs s t)

/-- R82: the register add gives the sum modulo 256 and VF the carry; with `x = 15` the carry is what VF holds
(the spec's D6). -/
def Obligations.AddRegistersGivesSumAndCarry : Prop :=
  ∀ (x y : Reg) (s : State), ∃ t, exec (.addReg x y) s = .next t ∧
    (x ≠ 15 → (t.getV x).toNat = ((s.getV x).toNat + (s.getV y).toNat) % 256) ∧
    t.getV 15 = (if (s.getV x).toNat + (s.getV y).toNat > 255 then 1 else 0) ∧
    SameRegsBut [x, 15] s t ∧ OnlyRegs s t

/-- R83, R85: the two subtractions give the difference modulo 256 and VF NOT borrow; with `x = 15` the flag is what VF
holds (the spec's D6). -/
def Obligations.SubtractionsGiveDifferenceAndNotBorrow : Prop :=
  ∀ (x y : Reg) (s : State),
    (∃ t, exec (.subReg x y) s = .next t ∧
      (x ≠ 15 → (t.getV x).toNat = ((s.getV x).toNat + 256 - (s.getV y).toNat) % 256) ∧
      t.getV 15 = (if (s.getV x).toNat ≥ (s.getV y).toNat then 1 else 0) ∧
      SameRegsBut [x, 15] s t ∧ OnlyRegs s t) ∧
    (∃ t, exec (.subnReg x y) s = .next t ∧
      (x ≠ 15 → (t.getV x).toNat = ((s.getV y).toNat + 256 - (s.getV x).toNat) % 256) ∧
      t.getV 15 = (if (s.getV y).toNat ≥ (s.getV x).toNat then 1 else 0) ∧
      SameRegsBut [x, 15] s t ∧ OnlyRegs s t)

/-- R84, R86: the two shifts by one read `V[x]` or `V[y]` as `SHIFT_SRC` says, for both of its values, and VF receives
the bit shifted out; with `x = 15` the flag is what VF holds (the spec's D3, D6). -/
def Obligations.ShiftsFollowShiftSource : Prop :=
  ∀ (x y : Reg) (s : State) (src : Byte),
    (s.quirks.shiftSrc = .vx → src = s.getV x) → (s.quirks.shiftSrc = .vy → src = s.getV y) →
    (∃ t, exec (.shr x y) s = .next t ∧
      (x ≠ 15 → (t.getV x).toNat = src.toNat / 2) ∧
      (t.getV 15).toNat = src.toNat % 2 ∧ SameRegsBut [x, 15] s t ∧ OnlyRegs s t) ∧
    (∃ t, exec (.shl x y) s = .next t ∧
      (x ≠ 15 → (t.getV x).toNat = src.toNat * 2 % 256) ∧
      (t.getV 15).toNat = src.toNat / 128 ∧ SameRegsBut [x, 15] s t ∧ OnlyRegs s t)

/-- Over all instructions: a register changes only if the instruction names it as a destination or it is VF and the
instruction is one of the six that write a flag; a flag written is 0 or 1, also where VF is the destination, unless the
instruction enters its fault instead, with nothing changed (R11; the spec's D6, D11, D30). -/
def Obligations.RegistersChangeOnlyAsNamed : Prop :=
  ∀ (i : Instr) (s t : State), exec i s = .next t →
    (∀ r, r ∉ destRegs i → (writesFlag i = true → r ≠ 15) → t.getV r = s.getV r) ∧
    (writesFlag i = true → t.getV 15 = 0 ∨ t.getV 15 = 1 ∨ FaultEntered .addressOutOfRange s t)

/-! ## Index register and memory -/

/-- R90 to R92: the three instructions that set `I` (the wrap of the sum is the spec's D5, the glyph order D16). -/
def Obligations.IndexInstructionsSetI : Prop :=
  ∀ (nnn : Addr12) (x : Reg) (s : State),
    (∃ t, exec (.ldI nnn) s = .next t ∧ t.i.toNat = nnn.toNat ∧ OnlyIndex s t) ∧
    (∃ t, exec (.addI x) s = .next t ∧ t.i.toNat = (s.i.toNat + (s.getV x).toNat) % 65536 ∧ OnlyIndex s t) ∧
    (∃ t, exec (.ldF x) s = .next t ∧ t.i.toNat = 5 * ((s.getV x).toNat % 16) ∧ OnlyIndex s t)

/-- R93: `LD B, Vx` stores the three decimal digits, hundreds first (the spec's D27), `I` unchanged; out of range it
enters the fault with nothing stored (D11). The memory is in its canonical form, an invariant (EventsKeepInvariant). -/
def Obligations.StoreDecimalWritesDigits : Prop :=
  ∀ (x : Reg) (s : State), s.mem.wf = true →
    (s.i.toNat + 2 < 4096 → ∃ t, exec (.ldB x) s = .next t ∧
      (t.byteAt s.i.toNat).toNat = (s.getV x).toNat / 100 ∧
      (t.byteAt (s.i.toNat + 1)).toNat = (s.getV x).toNat / 10 % 10 ∧
      (t.byteAt (s.i.toNat + 2)).toNat = (s.getV x).toNat % 10 ∧
      SameBytesOutside s.i.toNat 3 s t ∧ t = { s with mem := t.mem }) ∧
    (4096 ≤ s.i.toNat + 2 → ∃ t, exec (.ldB x) s = .next t ∧ FaultEntered .addressOutOfRange s t)

/-- R94: `LD [I], Vx` stores `V[0]` to `V[x]` at `I` and up, and moves `I` by `x + 1` exactly under
`MEMOP_I_INCREMENT` (the spec's D4); out of range it enters the fault with nothing stored (D11). The memory is in its
canonical form, an invariant (EventsKeepInvariant). -/
def Obligations.StoreBlockWritesRegisters : Prop :=
  ∀ (x : Reg) (s : State), s.mem.wf = true →
    (s.i.toNat + x.val < 4096 → ∃ t, exec (.storeRegs x) s = .next t ∧
      (∀ k : Reg, k.val ≤ x.val → t.byteAt (s.i.toNat + k.val) = s.getV k) ∧
      SameBytesOutside s.i.toNat (x.val + 1) s t ∧
      (s.quirks.memopIIncrement = false → t.i = s.i) ∧
      (s.quirks.memopIIncrement = true → t.i.toNat = (s.i.toNat + x.val + 1) % 65536) ∧
      t = { s with mem := t.mem, i := t.i }) ∧
    (4096 ≤ s.i.toNat + x.val → ∃ t, exec (.storeRegs x) s = .next t ∧ FaultEntered .addressOutOfRange s t)

/-- R95: `LD Vx, [I]` loads `V[0]` to `V[x]` from `I` and up, and moves `I` by `x + 1` exactly under
`MEMOP_I_INCREMENT` (the spec's D4); out of range it enters the fault (D11). -/
def Obligations.LoadBlockReadsMemory : Prop :=
  ∀ (x : Reg) (s : State),
    (s.i.toNat + x.val < 4096 → ∃ t, exec (.loadRegs x) s = .next t ∧
      (∀ k : Reg, k.val ≤ x.val → t.getV k = s.byteAt (s.i.toNat + k.val)) ∧
      (∀ k : Reg, x.val < k.val → t.getV k = s.getV k) ∧
      (s.quirks.memopIIncrement = false → t.i = s.i) ∧
      (s.quirks.memopIIncrement = true → t.i.toNat = (s.i.toNat + x.val + 1) % 65536) ∧
      t = { s with v := t.v, i := t.i } ∧ SameBytes s t) ∧
    (4096 ≤ s.i.toNat + x.val → ∃ t, exec (.loadRegs x) s = .next t ∧ FaultEntered .addressOutOfRange s t)

/-- A block stored and loaded back through the same `I` restores the registers, whatever they held in between. -/
def Obligations.StoredBlockLoadsBack : Prop :=
  ∀ (x : Reg) (s t : State) (junk : Vector Byte 16), s.mem.wf = true → s.i.toNat + x.val < 4096 →
    exec (.storeRegs x) s = .next t →
    ∃ u, exec (.loadRegs x) { t with v := junk, i := s.i } = .next u ∧
      (∀ k : Reg, k.val ≤ x.val → u.getV k = s.getV k) ∧ u.mode = s.mode

/-- A store into the instruction stream is seen by the very next fetch (R43, the spec's D18): two registers stored at
`pc` are the next word fetched. The memory is in its canonical form, an invariant (EventsKeepInvariant). -/
def Obligations.StoreIsSeenByNextFetch : Prop :=
  ∀ s : State, s.mem.wf = true → s.i = s.pc → s.pc.toNat + 1 < 4096 →
    ∃ t u w, exec (.storeRegs 1) s = .next t ∧ t.fetch = .ok (w, u) ∧
      w.toNat = (s.getV 0).toNat * 256 + (s.getV 1).toNat

/-! ## Random, timers, keypad -/

/-- R100: `RND` writes the drawn byte under the mask, whatever byte is drawn (the free value of log entry 1), and
advances the generator; a bit that is 0 in the mask is 0 in the result. -/
def Obligations.RandomIsMaskedDraw : Prop :=
  ∀ (x : Reg) (nn : Byte) (s : State), ∃ t, exec (.rnd x nn) s = .next t ∧
    t.getV x = (Config.rngNext s.rng).1 &&& nn ∧ t.rng = (Config.rngNext s.rng).2 ∧
    (∀ k, nn.getLsbD k = false → (t.getV x).getLsbD k = false) ∧
    SameRegsBut [x] s t ∧ t = { s with v := t.v, rng := t.rng } ∧ SameBytes s t

/-- R101 to R103: the loads from and to the timers; the buzzer output follows `LD ST, Vx` at once. -/
def Obligations.TimerLoadsMoveBytes : Prop :=
  ∀ (x : Reg) (s : State),
    (∃ t, exec (.ldVxDT x) s = .next t ∧ t.getV x = s.dt ∧ SameRegsBut [x] s t ∧ OnlyRegs s t) ∧
    (∃ t, exec (.ldDTVx x) s = .next t ∧ t.dt = s.getV x ∧ t = { s with dt := t.dt } ∧ SameBytes s t) ∧
    (∃ t, exec (.ldSTVx x) s = .next t ∧ t.st = s.getV x ∧ t.buzz = decide ((s.getV x).toNat ≠ 0) ∧
      t = { s with st := t.st } ∧ SameBytes s t)

/-- R106: `LD Vx, K` writes the run state alone; afterwards STEP does nothing, TICK leaves the wait as it is, a press of
any key, held or not, writes its code to `V[x]` and resumes at the next instruction, and a release does not. -/
def Obligations.WaitForKeyEndsWithPress : Prop :=
  ∀ (x : Reg) (s : State), ∃ t, exec (.ldVxK x) s = .next t ∧
    t = { s with mode := .waitingForKey x } ∧ SameBytes s t ∧ step t = .next t ∧
    (tick t).mode = .waitingForKey x ∧ t.halted = false ∧
    (∀ c : Key, (key c true t).mode = .running ∧ ((key c true t).getV x).toNat = c.val ∧
      SameRegsBut [x] s (key c true t) ∧ (key c true t).pc = s.pc) ∧
    (∀ c : Key, (key c false t).mode = .waitingForKey x)

/-! ## Display -/

/-- R111: `CLS` turns every pixel off and changes nothing else. -/
def Obligations.ClearTurnsEveryPixelOff : Prop :=
  ∀ s : State, ∃ t, exec .cls s = .next t ∧
    (∀ py px, py < 32 → px < 64 → t.disp.pixel py px = false) ∧ t = { s with disp := t.disp } ∧ SameBytes s t

/-- R112, R113: `DRW` toggles exactly the pixels its sprite covers inside the display, start coordinates wrapped and
pixels clipped; VF is 1 exactly when one that was lit is turned off; out of range it enters the fault (the spec's D11,
D13 for no rows, D14 for the rows checked, D15 for the bit order, log entry 4). -/
def Obligations.DrawTogglesCoveredPixels : Prop :=
  ∀ (x y : Reg) (n : Rows) (s : State),
    (n.val = 0 ∨ s.i.toNat + n.val - 1 < 4096 → ∃ t, exec (.drw x y n) s = .next t ∧
      (∀ py px, py < 32 → px < 64 → t.disp.pixel py px = (s.disp.pixel py px ^^ s.spriteCovers x y n py px)) ∧
      (t.getV 15 = 0 ∨ t.getV 15 = 1) ∧
      (t.getV 15 = 1 ↔ ∃ py px, py < 32 ∧ px < 64 ∧ s.disp.pixel py px = true ∧ t.disp.pixel py px = false) ∧
      SameRegsBut [15] s t ∧ t = { s with disp := t.disp, v := t.v } ∧ SameBytes s t) ∧
    (n.val ≠ 0 → 4096 ≤ s.i.toNat + n.val - 1 →
      ∃ t, exec (.drw x y n) s = .next t ∧ FaultEntered .addressOutOfRange s t)

/-- Drawing the same sprite twice at the same place restores the display; on a clear display the first flag is 0, and
the second is 1 exactly when the sprite has a 1 bit inside the display (R112, corner case 9; the range is the spec's
D14). -/
def Obligations.DrawingTwiceRestoresDisplay : Prop :=
  ∀ (x y : Reg) (n : Rows) (s t u : State), x ≠ 15 → y ≠ 15 →
    (n.val = 0 ∨ s.i.toNat + n.val ≤ 4096) →
    exec (.drw x y n) s = .next t → exec (.drw x y n) t = .next u →
    u.disp = s.disp ∧
    (s.disp = Display.clear → t.getV 15 = 0 ∧
      (u.getV 15 = 1 ↔ ∃ py px, py < 32 ∧ px < 64 ∧ s.spriteCovers x y n py px = true))

/-- R114: the read-out is 8192 bytes, the four bytes of pixel (x, y) at `(y * 64 + x) * 4` are its colour and 255 (the
byte layout is the spec's D26). -/
def Obligations.RenderLaysOutPixels : Prop :=
  ∀ (s : State) (off on : Colour), (s.render off on).length = 8192 ∧
    ∀ py px, py < 32 → px < 64 →
      let c := if s.disp.pixel py px then on else off
      let p := (py * 64 + px) * 4
      (s.render off on)[p]? = some c.red ∧ (s.render off on)[p + 1]? = some c.green ∧
      (s.render off on)[p + 2]? = some c.blue ∧ (s.render off on)[p + 3]? = some 255

/-- Two displays that read out the same in two different colours are the same display (R114). -/
def Obligations.RenderDeterminesDisplay : Prop :=
  ∀ (s t : State) (off on : Colour), off ≠ on → s.render off on = t.render off on → s.disp = t.disp

/-! ## Events and outputs -/

/-- R127: TICK subtracts one from each non-zero timer, does nothing when halted (the spec's D20), and changes nothing
else. -/
def Obligations.TickCountsTimersDown : Prop :=
  ∀ s : State,
    (s.IsHalted → tick s = s) ∧
    (¬s.IsHalted → (tick s).dt.toNat = s.dt.toNat - 1 ∧ (tick s).st.toNat = s.st.toNat - 1 ∧
      tick s = { s with dt := (tick s).dt, st := (tick s).st } ∧ SameBytes s (tick s))

/-- After `n` TICKs with no instruction between, each timer is `max(0, T - n)` (95_test_vectors.md S2). -/
def Obligations.TimersReachZeroAndStay : Prop :=
  ∀ (n : Nat) (s : State), ¬s.IsHalted → ∃ t, events (List.replicate n .tick) s = .next t ∧
    t.dt.toNat = s.dt.toNat - n ∧ t.st.toNat = s.st.toNat - n ∧ t.mode = s.mode ∧
    (t.buzz = true ↔ n < s.st.toNat)

/-- R129: KEY sets one key state in every run state, and a press in a key wait writes the code to the waiting register
and resumes; nothing else changes (in `Halted` it is the spec's D23). -/
def Obligations.KeyEventSetsOneKey : Prop :=
  ∀ (c : Key) (p : Bool) (s : State),
    (key c p s).keys[c] = p ∧ (∀ k : Key, k ≠ c → (key c p s).keys[k] = s.keys[k]) ∧ SameBytes s (key c p s) ∧
    (∀ r, s.mode = .waitingForKey r → p = true →
      ((key c p s).getV r).toNat = c.val ∧ SameRegsBut [r] s (key c p s) ∧
      key c p s = { s with keys := (key c p s).keys, v := (key c p s).v, mode := .running }) ∧
    (¬s.Waiting ∨ p = false → key c p s = { s with keys := (key c p s).keys })

/-- R122: no schedule of events takes a machine out of `Halted`, and none changes anything of it but the keys,
which only KEY changes (that TICK does nothing there is the spec's D20, that KEY changes only the keys D23; log entry
10). -/
def Obligations.HaltedIsTerminal : Prop :=
  ∀ (es : List Event) (s : State) (r : FaultReason), s.mode = .halted r →
    ∃ t, events es s = .next t ∧ t = { s with keys := t.keys } ∧ t.halted = true ∧ t.haltReason = some r ∧
      ((∀ e ∈ es, ∀ c p, e ≠ .key c p) → t = s)

/-- A key wait outlasts every schedule without a press: the run state, `pc` and everything but timers and keys stay
(R130, R106; DOC1's blocking input). -/
def Obligations.KeyWaitLastsUntilPress : Prop :=
  ∀ (es : List Event) (s : State), s.Waiting → (∀ e ∈ es, e.noPress = true) →
    ∃ t, events es s = .next t ∧ t = { s with dt := t.dt, st := t.st, keys := t.keys } ∧ t.halted = false

/-- R131: RUN does nothing when halted; otherwise it is some number of STEPs, at most `maxCycles` and fewer only if
the machine stopped running, each from a running machine, and then exactly one TICK; it always ends (the
order and a count of 0 are the spec's D21). -/
def Obligations.RunIsStepsThenOneTick : Prop :=
  ∀ (m : BitVec 32) (s : State),
    (s.IsHalted → run m s = .next s) ∧
    (¬s.IsHalted → ∃ k t, k ≤ m.toNat ∧ events (List.replicate k .step) s = .next t ∧ run m s = .next (tick t) ∧
      (k = m.toNat ∨ t.mode ≠ .running) ∧
      ∀ j u, j < k → events (List.replicate j .step) s = .next u → u.mode = .running)

/-- The run state changes only as R130's table says: STEP leaves `Running` only by `LD Vx, K` or by a fault, and
nothing but a running machine takes a step (that a fault changes nothing but the run state, with `pc` at most 2 further,
is the spec's D7, D11; log entry 10). -/
def Obligations.StepChangesModeAsTabled : Prop :=
  ∀ s t : State, step s = .next t →
    (∀ r, t.mode = .waitingForKey r →
      s.mode = .waitingForKey r ∨ (s.mode = .running ∧ decodeWord s.wordAtPc = .ok (.ldVxK r))) ∧
    (∀ r, t.mode = .halted r → s.mode = .halted r ∨
      (s.mode = .running ∧ t = { s with mode := t.mode, pc := t.pc } ∧ (t.pc = s.pc ∨ t.pc = s.pc + 2)))

/-- Over all instructions: each piece of state other than the general registers changes only by the instructions the
spec lets write it (R12 to R20, R34, R61, R110), the run state also by a fault, which changes nothing else (R62, R121;
the spec's D11, log entry 10); keys and the quirks by none. That RET leaves the popped slot is D10 (log entry 9), that
no instruction writes the quirks is the model's log entry 3, and the state RND leaves is the free value of log entry
1. -/
def Obligations.StateChangesOnlyByItsInstructions : Prop :=
  ∀ (i : Instr) (s t : State), exec i s = .next t →
    (t.i ≠ s.i → (∃ n, i = .ldI n) ∨ (∃ x, i = .addI x) ∨ (∃ x, i = .ldF x) ∨
      (s.quirks.memopIIncrement = true ∧ ∃ x, i = .storeRegs x ∨ i = .loadRegs x)) ∧
    (t.pc ≠ s.pc → i = .ret ∨ (∃ n, i = .jp n ∨ i = .call n ∨ i = .jpV0 n) ∨
      (∃ x nn, i = .seImm x nn ∨ i = .sneImm x nn) ∨ (∃ x y, i = .seReg x y ∨ i = .sneReg x y) ∨
      ∃ x, i = .skp x ∨ i = .sknp x) ∧
    (t.mode ≠ s.mode → (∃ x, i = .ldVxK x ∧ t = { s with mode := .waitingForKey x }) ∨ ∃ r, FaultEntered r s t) ∧
    (t.stack ≠ s.stack → ∃ n, i = .call n) ∧
    (t.sp ≠ s.sp → (∃ n, i = .call n) ∨ i = .ret) ∧
    (t.dt ≠ s.dt → ∃ x, i = .ldDTVx x) ∧
    (t.st ≠ s.st → ∃ x, i = .ldSTVx x) ∧
    (t.disp ≠ s.disp → i = .cls ∨ ∃ x y n, i = .drw x y n) ∧
    (t.rng = s.rng ∨ ∃ x nn, i = .rnd x nn ∧ t.rng = (Config.rngNext s.rng).2) ∧
    ((∃ a, t.byteAt a ≠ s.byteAt a) → ∃ x, i = .ldB x ∨ i = .storeRegs x) ∧
    t.keys = s.keys ∧ t.quirks = s.quirks

/-- R128, R26: the outputs as functions of the state; there is a reason exactly when halted, the one recorded. -/
def Obligations.OutputsReadTheState : Prop :=
  ∀ s : State, (s.buzz = true ↔ 0 < s.st.toNat) ∧ (s.halted = true ↔ s.IsHalted) ∧
    (∀ r, s.haltReason = some r ↔ s.mode = .halted r)

/-! ## Reset, LOAD, invariant -/

/-- The machine after reset is what LOAD of an empty ROM builds with every open parameter at its default, and holds
these values (R24, R140). `rng` is left out: its 0 is the model's (log entry 1). The zeros of memory are the spec's D17,
of addresses past 0xFFF the model's log entry 11, the font's first byte the spec's D16 (log entry 2). -/
def Obligations.ResetLeavesTheseValues : Prop :=
  load Params.default [] = .ok State.reset ∧
  (∀ r, State.reset.getV r = 0) ∧ State.reset.i = 0 ∧ State.reset.pc = 0x200 ∧ State.reset.sp = 0 ∧
  State.reset.dt = 0 ∧ State.reset.st = 0 ∧ State.reset.mode = .running ∧
  (∀ py px, State.reset.disp.pixel py px = false) ∧ (∀ k : Key, State.reset.keys[k] = false) ∧
  State.reset.haltReason = none ∧ State.reset.buzz = false ∧
  State.reset.byteAt 0x000 = 0xF0 ∧ (∀ a, 0x50 ≤ a → State.reset.byteAt a = 0)

/-- R24, R140: LOAD of a ROM that fits, with any setting of the open parameters, leaves every piece of state at its
reset value, the font at 0x000, the ROM's bytes at 0x200 and zeros in the rest of memory (the stack's zeros are the
spec's D10, memory's D17, and the zeros of addresses past 0xFFF, which do not exist, the model's log entry 11). -/
def Obligations.LoadLeavesResetValuesAndRom : Prop :=
  ∀ (p : Params) (rom : List Byte), rom.length ≤ 3584 → ∃ s, load p rom = .ok s ∧
    (∀ r, s.getV r = 0) ∧ s.i = 0 ∧ s.pc = 0x200 ∧ s.sp = 0 ∧ (∀ k : Fin 16, s.stack[k] = 0) ∧
    s.dt = 0 ∧ s.st = 0 ∧ (∀ py px, s.disp.pixel py px = false) ∧ (∀ k : Key, s.keys[k] = false) ∧
    s.mode = .running ∧ s.rng = p.rngSeed ∧ s.quirks = p.quirks ∧
    s.halted = false ∧ s.haltReason = none ∧ s.buzz = false ∧
    (∀ k : Fin 80, s.byteAt k.val = p.font[k]) ∧
    (∀ a, 0x50 ≤ a → a < 0x200 → s.byteAt a = 0) ∧
    (∀ k (h : k < rom.length), s.byteAt (0x200 + k) = rom[k]) ∧
    (∀ a, 0x200 + rom.length ≤ a → s.byteAt a = 0)

/-- R141: a ROM of more than 3584 bytes gives the error and no machine. -/
def Obligations.LoadRefusesOversizeRom : Prop :=
  ∀ (p : Params) (rom : List Byte), 3584 < rom.length ↔ load p rom = .error .tooLarge

/-- An empty ROM halts on its first STEP with `UnknownOpcode` and `pc = 0x202` (R140, 95_test_vectors.md 2.7; the
spec derives it, from D2, D7 and D17, and its code 1 is D12). -/
def Obligations.EmptyRomHaltsOnUnknownOpcode : Prop :=
  ∃ s t, load Params.default [] = .ok s ∧ run 1 s = .next t ∧ t.mode = .halted .unknownOpcode ∧ t.pc = 0x202 ∧
    t.haltCode = 1

/-- The invariant of R25 holds at reset (the canonical form of memory is the model's, log entry 11). -/
def Obligations.InvariantHoldsAtReset : Prop := State.reset.Inv

/-- The invariant of R25 holds of every machine LOAD builds, with any setting of the open parameters (the canonical form
of memory is the model's, log entry 11). -/
def Obligations.InvariantHoldsAfterLoad : Prop :=
  ∀ (p : Params) (rom : List Byte) (s : State), load p rom = .ok s → s.Inv

/-- Every STEP keeps the invariant of R25: `pc <= 0x10FE`, the live return addresses in 2 .. 0x1000, the memory in its
canonical form (the last is the model's, log entry 11). -/
def Obligations.StepKeepsInvariant : Prop :=
  ∀ s t : State, s.Inv → step s = .next t → t.Inv

/-- Every schedule of events, RUNs and key presses among them, keeps the invariant of R25 and ends in a next
state (the canonical form of memory is the model's, log entry 11; that a fault is a next state, log entry 7). -/
def Obligations.EventsKeepInvariant : Prop :=
  ∀ (es : List Event) (s : State), s.Inv → ∃ t, events es s = .next t ∧ t.Inv

/-- R148 (2): a spinning machine is a fixed point of STEP, and any number of STEPs leaves it as it is (the
condition is the spec's D32, that both bytes of the jump lie in memory is log entry 6). -/
def Obligations.SpinningIsAFixedPoint : Prop :=
  ∀ (n : Nat) (s : State), s.Spinning → events (List.replicate n .step) s = .next s
end

