-- ==== Sys2Proof/Laws/Encoding.lean ====
section
/-! SUPPORT. The fields and the formats of instruction words as arithmetic on their numbers, what each field of a word
built by a format reads as, and what the mask of each format keeps, so that no proof takes a word apart again. -/

namespace Sys2Proof

/-- Two bit strings put together, as a number. -/
theorem append_toNat {m n : Nat} (a : BitVec m) (b : BitVec n) : (a ++ b).toNat = a.toNat * 2 ^ n + b.toNat := by
  rw [BitVec.toNat_append, ← Nat.shiftLeft_add_eq_or_of_lt b.isLt, Nat.shiftLeft_eq]

theorem wordNNN_toNat (op : BitVec 4) (nnn : Addr12) : (wordNNN op nnn).toNat = op.toNat * 4096 + nnn.toNat :=
  append_toNat op nnn

theorem wordXNN_toNat (op : BitVec 4) (x : Reg) (nn : Byte) :
    (wordXNN op x nn).toNat = op.toNat * 4096 + x.val * 256 + nn.toNat := by
  have h : (BitVec.ofFin (w := 4) x ++ nn : BitVec (4 + 8)).toNat = x.val * 256 + nn.toNat := append_toNat _ nn
  rw [wordXNN, wordNNN_toNat, Nat.add_assoc]
  exact congrArg _ h

theorem wordXYN_toNat (op : BitVec 4) (x y : Reg) (n : Rows) :
    (wordXYN op x y n).toNat = op.toNat * 4096 + x.val * 256 + y.val * 16 + n.val := by
  have h : (BitVec.ofFin (w := 4) y ++ BitVec.ofFin (w := 4) n : BitVec (4 + 4)).toNat = y.val * 16 + n.val :=
    append_toNat _ _
  rw [wordXYN, wordXNN_toNat, Nat.add_assoc _ (y.val * 16)]
  exact congrArg _ h

theorem opField_eq (w : Word) : opField w = w.toNat / 4096 % 16 := by
  simp [opField, BitVec.extractLsb'_toNat, Nat.shiftRight_eq_div_pow]

theorem xField_val (w : Word) : (xField w).val = w.toNat / 256 % 16 := by
  simp [xField, Nat.shiftRight_eq_div_pow]

theorem yField_val (w : Word) : (yField w).val = w.toNat / 16 % 16 := by
  simp [yField, Nat.shiftRight_eq_div_pow]

theorem nField_val (w : Word) : (nField w).val = w.toNat % 16 := by
  simp [nField]

theorem nnField_toNat (w : Word) : (nnField w).toNat = w.toNat % 256 := by
  simp [nnField, BitVec.extractLsb'_toNat]

theorem nnnField_toNat (w : Word) : (nnnField w).toNat = w.toNat % 4096 := by
  simp [nnnField, BitVec.extractLsb'_toNat]

section formats

variable (op : BitVec 4) (nnn : Addr12) (x y : Reg) (nn : Byte) (n : Rows)

@[simp] theorem opField_wordNNN : opField (wordNNN op nnn) = op.toNat := by
  have := op.isLt; have := nnn.isLt
  rw [opField_eq, wordNNN_toNat]; omega

@[simp] theorem nnnField_wordNNN : nnnField (wordNNN op nnn) = nnn := by
  apply BitVec.eq_of_toNat_eq
  have := nnn.isLt
  rw [nnnField_toNat, wordNNN_toNat]; omega

@[simp] theorem opField_wordXNN : opField (wordXNN op x nn) = op.toNat := opField_wordNNN op _

@[simp] theorem xField_wordXNN : xField (wordXNN op x nn) = x := by
  apply Fin.ext
  have := nn.isLt; have := x.isLt
  rw [xField_val, wordXNN_toNat]; omega

@[simp] theorem nnField_wordXNN : nnField (wordXNN op x nn) = nn := by
  apply BitVec.eq_of_toNat_eq
  have := nn.isLt
  rw [nnField_toNat, wordXNN_toNat]; omega

@[simp] theorem opField_wordXYN : opField (wordXYN op x y n) = op.toNat := opField_wordXNN op x _

@[simp] theorem xField_wordXYN : xField (wordXYN op x y n) = x := xField_wordXNN op x _

@[simp] theorem yField_wordXYN : yField (wordXYN op x y n) = y := by
  apply Fin.ext
  have := n.isLt; have := y.isLt
  rw [yField_val, wordXYN_toNat]; omega

@[simp] theorem nField_wordXYN : nField (wordXYN op x y n) = n := by
  apply Fin.ext
  have := n.isLt
  rw [nField_val, wordXYN_toNat]; omega

theorem wordNNN_bit (k : Nat) :
    (wordNNN op nnn).getLsbD k = if k < 12 then nnn.getLsbD k else op.getLsbD (k - 12) :=
  BitVec.getLsbD_append

theorem wordXNN_bit (k : Nat) : (wordXNN op x nn).getLsbD k =
    if k < 12 then (if k < 8 then nn.getLsbD k else (BitVec.ofFin (w := 4) x).getLsbD (k - 8))
    else op.getLsbD (k - 12) := by
  have h : (BitVec.ofFin (w := 4) x ++ nn : BitVec (4 + 8)).getLsbD k = _ := BitVec.getLsbD_append
  rw [wordXNN, wordNNN_bit, ← h]

theorem wordXYN_bit (k : Nat) : (wordXYN op x y n).getLsbD k =
    if k < 12 then
      (if k < 8 then
        (if k < 4 then (BitVec.ofFin (w := 4) n).getLsbD k else (BitVec.ofFin (w := 4) y).getLsbD (k - 4))
      else (BitVec.ofFin (w := 4) x).getLsbD (k - 8))
    else op.getLsbD (k - 12) := by
  have h : (BitVec.ofFin (w := 4) y ++ BitVec.ofFin (w := 4) n : BitVec (4 + 4)).getLsbD k = _ :=
    BitVec.getLsbD_append
  rw [wordXYN, wordXNN_bit, ← h]

/-- The mask of format `NNN` keeps the group. -/
theorem wordNNN_mask : wordNNN op nnn &&& 0xF000 = wordNNN op 0 := by
  apply BitVec.eq_of_getLsbD_eq
  intro k hk
  rw [BitVec.getLsbD_and, wordNNN_bit, wordNNN_bit]
  interval_cases k <;> simp

/-- The mask of format `X` keeps the group and the low byte. -/
theorem wordXNN_mask : wordXNN op x nn &&& 0xF0FF = wordXNN op 0 nn := by
  apply BitVec.eq_of_getLsbD_eq
  intro k hk
  rw [BitVec.getLsbD_and, wordXNN_bit, wordXNN_bit]
  interval_cases k <;> simp

/-- The mask of format `XY` keeps the group and the low nibble. -/
theorem wordXYN_mask : wordXYN op x y n &&& 0xF00F = wordXYN op 0 0 n := by
  apply BitVec.eq_of_getLsbD_eq
  intro k hk
  rw [BitVec.getLsbD_and, wordXYN_bit, wordXYN_bit]
  interval_cases k <;> simp

/-- The mask of a group selects on the group alone. -/
theorem wordXNN_group : wordXNN op x nn &&& 0xF000 = wordNNN op 0 := wordNNN_mask op _

/-- The mask of a group selects on the group alone. -/
theorem wordXYN_group : wordXYN op x y n &&& 0xF000 = wordNNN op 0 := wordNNN_mask op _

end formats

theorem highByte_toNat (w : Word) : (highByte w).toNat = w.toNat / 256 := by
  have := w.isLt
  simp [highByte, BitVec.extractLsb'_toNat, Nat.shiftRight_eq_div_pow]
  omega

theorem lowByte_toNat (w : Word) : (lowByte w).toNat = w.toNat % 256 := by
  simp [lowByte, BitVec.extractLsb'_toNat]

/-- A word is its high byte times 256 plus its low byte (R39). -/
theorem wordOfBytes_toNat (hi lo : Byte) : (wordOfBytes hi lo).toNat = hi.toNat * 256 + lo.toNat := append_toNat hi lo

/-- The two halves of a word put together give it back (R33). -/
@[simp] theorem wordOfBytes_halves (w : Word) : wordOfBytes (highByte w) (lowByte w) = w := by
  apply BitVec.eq_of_toNat_eq
  rw [wordOfBytes_toNat, highByte_toNat, lowByte_toNat]
  omega

/-- A table word of 16 bits is the word itself. -/
@[simp] theorem tableWord_toNat (w : Word) : tableWord 16 w.toNat = w := by
  simp [tableWord, Nat.mod_eq_of_lt w.isLt]

end Sys2Proof
end

