-- ==== Sys2Proof/Laws/Memory.lean ====
section
/-! SUPPORT. The laws of the memory: a write is read back, a write leaves every other byte alone, and every memory
operation keeps the canonical form; each for one byte and for a run of bytes. -/

namespace Sys2Proof.Machine

theorem Mem.wfFrom_cons {lo a : Nat} {v : Byte} {m : Mem} :
    Mem.wfFrom lo ((a, v) :: m) = true ↔ lo ≤ a ∧ a < 4096 ∧ v ≠ Mem.unlisted a ∧ Mem.wfFrom (a + 1) m = true := by
  simp [Mem.wfFrom, and_assoc]

theorem Mem.wfFrom_mono {lo hi : Nat} (m : Mem) (h : lo ≤ hi) (hm : Mem.wfFrom hi m = true) :
    Mem.wfFrom lo m = true := by
  cases m with
  | nil => rfl
  | cons e m => obtain ⟨a, v⟩ := e; rw [Mem.wfFrom_cons] at *; exact ⟨by omega, hm.2⟩

/-- Below the first listed address every byte is the reset content. -/
theorem Mem.read_below {m : Mem} : ∀ {lo a : Nat}, Mem.wfFrom lo m = true → a < lo → Mem.read m a = Mem.unlisted a := by
  induction m with
  | nil => intros; rfl
  | cons e m ih =>
    obtain ⟨b, w⟩ := e
    intro lo a hm ha
    rw [Mem.wfFrom_cons] at hm
    rw [Mem.read, if_neg (by omega), ih hm.2.2.2 (by omega)]

theorem Mem.read_entry (a : Nat) (v : Byte) (rest : Mem) (c : Nat) (h : Mem.read rest a = Mem.unlisted a ∨ a ≠ c) :
    Mem.read (Mem.entry a v rest) c = if a = c then v else Mem.read rest c := by
  unfold Mem.entry
  split
  · split
    · subst_vars; simpa using h
    · rfl
  · rw [Mem.read]

/-- A write leaves every other byte alone. -/
theorem Mem.read_write_other (m : Mem) {a c : Nat} (v : Byte) (h : a ≠ c) :
    Mem.read (Mem.write m a v) c = Mem.read m c := by
  induction m with
  | nil => rw [Mem.write, Mem.read_entry _ _ _ _ (.inr h), if_neg h]
  | cons e m ih =>
    obtain ⟨b, w⟩ := e
    simp only [Mem.write]
    split
    · rw [Mem.read_entry _ _ _ _ (.inr h), if_neg h]
    · split
      · subst_vars; rw [Mem.read_entry _ _ _ _ (.inr h), if_neg h, Mem.read, if_neg h]
      · simp only [Mem.read, ih]

theorem Mem.read_write_same_from (m : Mem) (a : Nat) (v : Byte) :
    ∀ lo, Mem.wfFrom lo m = true → Mem.read (Mem.write m a v) a = v := by
  induction m with
  | nil => intro _ _; rw [Mem.write, Mem.read_entry _ _ _ _ (.inl rfl), if_pos rfl]
  | cons e m ih =>
    obtain ⟨b, w⟩ := e
    intro lo hm
    have hm' := Mem.wfFrom_cons.1 hm
    simp only [Mem.write]
    split
    · rw [Mem.read_entry _ _ _ _ (.inl ?_), if_pos rfl]
      rw [Mem.read, if_neg (by omega)]
      exact Mem.read_below hm'.2.2.2 (by omega)
    · split
      · subst_vars
        rw [Mem.read_entry _ _ _ _ (.inl (Mem.read_below hm'.2.2.2 (by omega))), if_pos rfl]
      · rw [Mem.read, if_neg (by omega), ih _ hm'.2.2.2]

/-- A write is read back. -/
theorem Mem.read_write_same {m : Mem} (hm : m.wf = true) (a : Nat) (v : Byte) :
    Mem.read (Mem.write m a v) a = v :=
  Mem.read_write_same_from m a v 0 hm

theorem Mem.wfFrom_entry {lo a : Nat} {v : Byte} {rest : Mem} (h : lo ≤ a) (ha : a < 4096)
    (hr : Mem.wfFrom (a + 1) rest = true) : Mem.wfFrom lo (Mem.entry a v rest) = true := by
  unfold Mem.entry
  split
  · exact Mem.wfFrom_mono rest (by omega) hr
  · exact Mem.wfFrom_cons.2 ⟨h, ha, ‹_›, hr⟩

theorem Mem.wfFrom_write {a : Nat} {v : Byte} (ha : a < 4096) (m : Mem) :
    ∀ lo, lo ≤ a → Mem.wfFrom lo m = true → Mem.wfFrom lo (Mem.write m a v) = true := by
  induction m with
  | nil => intro lo h _; exact Mem.wfFrom_entry h ha rfl
  | cons e m ih =>
    obtain ⟨b, w⟩ := e
    intro lo h hm
    have hm' := Mem.wfFrom_cons.1 hm
    simp only [Mem.write]
    split
    · exact Mem.wfFrom_entry h ha (Mem.wfFrom_cons.2 ⟨by omega, hm'.2⟩)
    · split
      · subst_vars; exact Mem.wfFrom_entry h ha hm'.2.2.2
      · exact Mem.wfFrom_cons.2 ⟨hm'.1, hm'.2.1, hm'.2.2.1, ih _ (by omega) hm'.2.2.2⟩

/-- A write at a valid address keeps the canonical form. -/
theorem Mem.wf_write {m : Mem} (hm : m.wf = true) {a : Nat} (ha : a < 4096) (v : Byte) :
    (Mem.write m a v).wf = true :=
  Mem.wfFrom_write ha m 0 (by omega) hm

/-- A run of bytes stored at valid addresses keeps the canonical form. -/
theorem Mem.wf_writeAll (bs : List Byte) :
    ∀ {m : Mem} {a : Nat}, m.wf = true → a + bs.length ≤ 4096 → (Mem.writeAll m a bs).wf = true := by
  induction bs with
  | nil => intro m a hm _; exact hm
  | cons b bs ih =>
    intro m a hm ha
    simp only [List.length_cons] at ha
    exact ih (Mem.wf_write hm (by omega) b) (by omega)

/-- Outside the run every byte is as before. -/
theorem Mem.read_writeAll_outside (bs : List Byte) :
    ∀ (m : Mem) (a : Nat) {c : Nat}, c < a ∨ a + bs.length ≤ c → Mem.read (Mem.writeAll m a bs) c = Mem.read m c := by
  induction bs with
  | nil => intros; rfl
  | cons b bs ih =>
    intro m a c h
    simp only [List.length_cons] at h
    rw [Mem.writeAll, ih _ _ (by omega), Mem.read_write_other _ _ (by omega)]

/-- Inside the run the k-th byte is the k-th byte stored. -/
theorem Mem.read_writeAll_inside (bs : List Byte) :
    ∀ {m : Mem} {a k : Nat}, m.wf = true → a + bs.length ≤ 4096 → (h : k < bs.length) →
      Mem.read (Mem.writeAll m a bs) (a + k) = bs[k] := by
  induction bs with
  | nil => intro m a k _ _ h; exact absurd h (by simp)
  | cons b bs ih =>
    intro m a k hm ha h
    simp only [List.length_cons] at ha h
    have hm' := Mem.wf_write hm (show a < 4096 by omega) b
    rw [Mem.writeAll]
    cases k with
    | zero => rw [Mem.read_writeAll_outside _ _ _ (by omega)]; exact Mem.read_write_same hm a b
    | succ k =>
      have := ih hm' (a := a + 1) (k := k) (by omega) (by omega)
      rw [show a + (k + 1) = a + 1 + k by omega, this]
      rfl

/-- Equal canonical memories are equal byte by byte: nothing is listed that reads as its reset content. -/
theorem Mem.wfFrom_ext {m : Mem} : ∀ {n : Mem} {lo : Nat}, Mem.wfFrom lo m = true → Mem.wfFrom lo n = true →
    (∀ a, lo ≤ a → Mem.read m a = Mem.read n a) → m = n := by
  induction m with
  | nil =>
    intro n lo _ hn h
    cases n with
    | nil => rfl
    | cons e n =>
      obtain ⟨b, w⟩ := e
      rw [Mem.wfFrom_cons] at hn
      have := h b hn.1
      rw [Mem.read, Mem.read, if_pos rfl] at this
      exact absurd this.symm hn.2.2.1
  | cons e m ih =>
    obtain ⟨b, w⟩ := e
    intro n lo hm hn h
    have hm' := Mem.wfFrom_cons.1 hm
    cases n with
    | nil =>
      have := h b hm'.1
      rw [Mem.read, Mem.read, if_pos rfl] at this
      exact absurd this hm'.2.2.1
    | cons e n =>
      obtain ⟨c, u⟩ := e
      have hn' := Mem.wfFrom_cons.1 hn
      rcases Nat.lt_trichotomy b c with hbc | rfl | hbc
      · have := h b hm'.1
        rw [Mem.read, if_pos rfl, Mem.read_below (lo := c) (Mem.wfFrom_cons.2 ⟨le_refl c, hn'.2⟩) hbc] at this
        exact absurd this hm'.2.2.1
      · have hv := h b hm'.1
        rw [Mem.read, Mem.read, if_pos rfl, if_pos rfl] at hv
        subst hv
        rw [ih hm'.2.2.2 hn'.2.2.2 fun a ha => ?_]
        have := h a (by omega)
        rwa [Mem.read, Mem.read, if_neg (by omega), if_neg (by omega)] at this
      · have := h c hn'.1
        rw [Mem.read_below (lo := b) (Mem.wfFrom_cons.2 ⟨le_refl b, hm'.2⟩) hbc, Mem.read, if_pos rfl] at this
        exact absurd this.symm hn'.2.2.1

/-- Canonical memories that read the same everywhere are the same list. -/
theorem Mem.ext_of_wf {m n : Mem} (hm : m.wf = true) (hn : n.wf = true) (h : ∀ a, Mem.read m a = Mem.read n a) :
    m = n :=
  Mem.wfFrom_ext hm hn fun a _ => h a

/-- What `CheckRange` passes: no byte, or all of them below 4096 (R36). -/
theorem inRange_iff (addr n : Nat) : inRange addr n = true ↔ n = 0 ∨ addr + n ≤ 4096 := by
  simp only [inRange, Config.memSize, Bool.or_eq_true, beq_iff_eq, decide_eq_true_eq]
  omega

end Sys2Proof.Machine
end

