-- ==== Sys2Proof/Laws/State.lean ====
section
/-! SUPPORT. The small lemmas of the state's updates: one per field per update, true by rfl and tagged simp, so that no
later proof unfolds a record update; and what a register, a byte or the generator reads as after each update. -/

namespace Sys2Proof.Machine

variable (s : State)

section setV

variable (x : Reg) (b : Byte)

@[simp] theorem State.setV_v : (s.setV x b).v = s.v.set x b := rfl
@[simp] theorem State.setV_i : (s.setV x b).i = s.i := rfl
@[simp] theorem State.setV_pc : (s.setV x b).pc = s.pc := rfl
@[simp] theorem State.setV_stack : (s.setV x b).stack = s.stack := rfl
@[simp] theorem State.setV_sp : (s.setV x b).sp = s.sp := rfl
@[simp] theorem State.setV_dt : (s.setV x b).dt = s.dt := rfl
@[simp] theorem State.setV_st : (s.setV x b).st = s.st := rfl
@[simp] theorem State.setV_disp : (s.setV x b).disp = s.disp := rfl
@[simp] theorem State.setV_keys : (s.setV x b).keys = s.keys := rfl
@[simp] theorem State.setV_mode : (s.setV x b).mode = s.mode := rfl
@[simp] theorem State.setV_rng : (s.setV x b).rng = s.rng := rfl
@[simp] theorem State.setV_mem : (s.setV x b).mem = s.mem := rfl
@[simp] theorem State.setV_quirks : (s.setV x b).quirks = s.quirks := rfl
@[simp] theorem State.byteAt_setV (n : Nat) : (s.setV x b).byteAt n = s.byteAt n := rfl

end setV

section setI

variable (w : Word)

@[simp] theorem State.setI_v : (s.setI w).v = s.v := rfl
@[simp] theorem State.setI_i : (s.setI w).i = w := rfl
@[simp] theorem State.setI_pc : (s.setI w).pc = s.pc := rfl
@[simp] theorem State.setI_stack : (s.setI w).stack = s.stack := rfl
@[simp] theorem State.setI_sp : (s.setI w).sp = s.sp := rfl
@[simp] theorem State.setI_dt : (s.setI w).dt = s.dt := rfl
@[simp] theorem State.setI_st : (s.setI w).st = s.st := rfl
@[simp] theorem State.setI_disp : (s.setI w).disp = s.disp := rfl
@[simp] theorem State.setI_keys : (s.setI w).keys = s.keys := rfl
@[simp] theorem State.setI_mode : (s.setI w).mode = s.mode := rfl
@[simp] theorem State.setI_rng : (s.setI w).rng = s.rng := rfl
@[simp] theorem State.setI_mem : (s.setI w).mem = s.mem := rfl
@[simp] theorem State.setI_quirks : (s.setI w).quirks = s.quirks := rfl
@[simp] theorem State.getV_setI (r : Reg) : (s.setI w).getV r = s.getV r := rfl
@[simp] theorem State.byteAt_setI (n : Nat) : (s.setI w).byteAt n = s.byteAt n := rfl

end setI

section jumpTo

variable (w : Word)

@[simp] theorem State.jumpTo_v : (s.jumpTo w).v = s.v := rfl
@[simp] theorem State.jumpTo_i : (s.jumpTo w).i = s.i := rfl
@[simp] theorem State.jumpTo_pc : (s.jumpTo w).pc = w := rfl
@[simp] theorem State.jumpTo_stack : (s.jumpTo w).stack = s.stack := rfl
@[simp] theorem State.jumpTo_sp : (s.jumpTo w).sp = s.sp := rfl
@[simp] theorem State.jumpTo_dt : (s.jumpTo w).dt = s.dt := rfl
@[simp] theorem State.jumpTo_st : (s.jumpTo w).st = s.st := rfl
@[simp] theorem State.jumpTo_disp : (s.jumpTo w).disp = s.disp := rfl
@[simp] theorem State.jumpTo_keys : (s.jumpTo w).keys = s.keys := rfl
@[simp] theorem State.jumpTo_mode : (s.jumpTo w).mode = s.mode := rfl
@[simp] theorem State.jumpTo_rng : (s.jumpTo w).rng = s.rng := rfl
@[simp] theorem State.jumpTo_mem : (s.jumpTo w).mem = s.mem := rfl
@[simp] theorem State.jumpTo_quirks : (s.jumpTo w).quirks = s.quirks := rfl
@[simp] theorem State.getV_jumpTo (r : Reg) : (s.jumpTo w).getV r = s.getV r := rfl
@[simp] theorem State.byteAt_jumpTo (n : Nat) : (s.jumpTo w).byteAt n = s.byteAt n := rfl

end jumpTo

section setDT

variable (b : Byte)

@[simp] theorem State.setDT_v : (s.setDT b).v = s.v := rfl
@[simp] theorem State.setDT_i : (s.setDT b).i = s.i := rfl
@[simp] theorem State.setDT_pc : (s.setDT b).pc = s.pc := rfl
@[simp] theorem State.setDT_stack : (s.setDT b).stack = s.stack := rfl
@[simp] theorem State.setDT_sp : (s.setDT b).sp = s.sp := rfl
@[simp] theorem State.setDT_dt : (s.setDT b).dt = b := rfl
@[simp] theorem State.setDT_st : (s.setDT b).st = s.st := rfl
@[simp] theorem State.setDT_disp : (s.setDT b).disp = s.disp := rfl
@[simp] theorem State.setDT_keys : (s.setDT b).keys = s.keys := rfl
@[simp] theorem State.setDT_mode : (s.setDT b).mode = s.mode := rfl
@[simp] theorem State.setDT_rng : (s.setDT b).rng = s.rng := rfl
@[simp] theorem State.setDT_mem : (s.setDT b).mem = s.mem := rfl
@[simp] theorem State.setDT_quirks : (s.setDT b).quirks = s.quirks := rfl
@[simp] theorem State.getV_setDT (r : Reg) : (s.setDT b).getV r = s.getV r := rfl
@[simp] theorem State.byteAt_setDT (n : Nat) : (s.setDT b).byteAt n = s.byteAt n := rfl

end setDT

section setST

variable (b : Byte)

@[simp] theorem State.setST_v : (s.setST b).v = s.v := rfl
@[simp] theorem State.setST_i : (s.setST b).i = s.i := rfl
@[simp] theorem State.setST_pc : (s.setST b).pc = s.pc := rfl
@[simp] theorem State.setST_stack : (s.setST b).stack = s.stack := rfl
@[simp] theorem State.setST_sp : (s.setST b).sp = s.sp := rfl
@[simp] theorem State.setST_dt : (s.setST b).dt = s.dt := rfl
@[simp] theorem State.setST_st : (s.setST b).st = b := rfl
@[simp] theorem State.setST_disp : (s.setST b).disp = s.disp := rfl
@[simp] theorem State.setST_keys : (s.setST b).keys = s.keys := rfl
@[simp] theorem State.setST_mode : (s.setST b).mode = s.mode := rfl
@[simp] theorem State.setST_rng : (s.setST b).rng = s.rng := rfl
@[simp] theorem State.setST_mem : (s.setST b).mem = s.mem := rfl
@[simp] theorem State.setST_quirks : (s.setST b).quirks = s.quirks := rfl
@[simp] theorem State.getV_setST (r : Reg) : (s.setST b).getV r = s.getV r := rfl
@[simp] theorem State.byteAt_setST (n : Nat) : (s.setST b).byteAt n = s.byteAt n := rfl

end setST

section setMode

variable (m : Mode)

@[simp] theorem State.setMode_v : (s.setMode m).v = s.v := rfl
@[simp] theorem State.setMode_i : (s.setMode m).i = s.i := rfl
@[simp] theorem State.setMode_pc : (s.setMode m).pc = s.pc := rfl
@[simp] theorem State.setMode_stack : (s.setMode m).stack = s.stack := rfl
@[simp] theorem State.setMode_sp : (s.setMode m).sp = s.sp := rfl
@[simp] theorem State.setMode_dt : (s.setMode m).dt = s.dt := rfl
@[simp] theorem State.setMode_st : (s.setMode m).st = s.st := rfl
@[simp] theorem State.setMode_disp : (s.setMode m).disp = s.disp := rfl
@[simp] theorem State.setMode_keys : (s.setMode m).keys = s.keys := rfl
@[simp] theorem State.setMode_mode : (s.setMode m).mode = m := rfl
@[simp] theorem State.setMode_rng : (s.setMode m).rng = s.rng := rfl
@[simp] theorem State.setMode_mem : (s.setMode m).mem = s.mem := rfl
@[simp] theorem State.setMode_quirks : (s.setMode m).quirks = s.quirks := rfl
@[simp] theorem State.getV_setMode (r : Reg) : (s.setMode m).getV r = s.getV r := rfl
@[simp] theorem State.byteAt_setMode (n : Nat) : (s.setMode m).byteAt n = s.byteAt n := rfl

end setMode

section setDisp

variable (d : Display)

@[simp] theorem State.setDisp_v : (s.setDisp d).v = s.v := rfl
@[simp] theorem State.setDisp_i : (s.setDisp d).i = s.i := rfl
@[simp] theorem State.setDisp_pc : (s.setDisp d).pc = s.pc := rfl
@[simp] theorem State.setDisp_stack : (s.setDisp d).stack = s.stack := rfl
@[simp] theorem State.setDisp_sp : (s.setDisp d).sp = s.sp := rfl
@[simp] theorem State.setDisp_dt : (s.setDisp d).dt = s.dt := rfl
@[simp] theorem State.setDisp_st : (s.setDisp d).st = s.st := rfl
@[simp] theorem State.setDisp_disp : (s.setDisp d).disp = d := rfl
@[simp] theorem State.setDisp_keys : (s.setDisp d).keys = s.keys := rfl
@[simp] theorem State.setDisp_mode : (s.setDisp d).mode = s.mode := rfl
@[simp] theorem State.setDisp_rng : (s.setDisp d).rng = s.rng := rfl
@[simp] theorem State.setDisp_mem : (s.setDisp d).mem = s.mem := rfl
@[simp] theorem State.setDisp_quirks : (s.setDisp d).quirks = s.quirks := rfl
@[simp] theorem State.getV_setDisp (r : Reg) : (s.setDisp d).getV r = s.getV r := rfl
@[simp] theorem State.byteAt_setDisp (n : Nat) : (s.setDisp d).byteAt n = s.byteAt n := rfl

end setDisp

section setKey

variable (c : Key) (p : Bool)

@[simp] theorem State.setKey_v : (s.setKey c p).v = s.v := rfl
@[simp] theorem State.setKey_i : (s.setKey c p).i = s.i := rfl
@[simp] theorem State.setKey_pc : (s.setKey c p).pc = s.pc := rfl
@[simp] theorem State.setKey_stack : (s.setKey c p).stack = s.stack := rfl
@[simp] theorem State.setKey_sp : (s.setKey c p).sp = s.sp := rfl
@[simp] theorem State.setKey_dt : (s.setKey c p).dt = s.dt := rfl
@[simp] theorem State.setKey_st : (s.setKey c p).st = s.st := rfl
@[simp] theorem State.setKey_disp : (s.setKey c p).disp = s.disp := rfl
@[simp] theorem State.setKey_keys : (s.setKey c p).keys = s.keys.set c p := rfl
@[simp] theorem State.setKey_mode : (s.setKey c p).mode = s.mode := rfl
@[simp] theorem State.setKey_rng : (s.setKey c p).rng = s.rng := rfl
@[simp] theorem State.setKey_mem : (s.setKey c p).mem = s.mem := rfl
@[simp] theorem State.setKey_quirks : (s.setKey c p).quirks = s.quirks := rfl
@[simp] theorem State.getV_setKey (r : Reg) : (s.setKey c p).getV r = s.getV r := rfl
@[simp] theorem State.byteAt_setKey (n : Nat) : (s.setKey c p).byteAt n = s.byteAt n := rfl

end setKey

section storeBytes

variable (a : Nat) (bs : List Byte)

@[simp] theorem State.storeBytes_v : (s.storeBytes a bs).v = s.v := rfl
@[simp] theorem State.storeBytes_i : (s.storeBytes a bs).i = s.i := rfl
@[simp] theorem State.storeBytes_pc : (s.storeBytes a bs).pc = s.pc := rfl
@[simp] theorem State.storeBytes_stack : (s.storeBytes a bs).stack = s.stack := rfl
@[simp] theorem State.storeBytes_sp : (s.storeBytes a bs).sp = s.sp := rfl
@[simp] theorem State.storeBytes_dt : (s.storeBytes a bs).dt = s.dt := rfl
@[simp] theorem State.storeBytes_st : (s.storeBytes a bs).st = s.st := rfl
@[simp] theorem State.storeBytes_disp : (s.storeBytes a bs).disp = s.disp := rfl
@[simp] theorem State.storeBytes_keys : (s.storeBytes a bs).keys = s.keys := rfl
@[simp] theorem State.storeBytes_mode : (s.storeBytes a bs).mode = s.mode := rfl
@[simp] theorem State.storeBytes_rng : (s.storeBytes a bs).rng = s.rng := rfl
@[simp] theorem State.storeBytes_mem : (s.storeBytes a bs).mem = Mem.writeAll s.mem a bs := rfl
@[simp] theorem State.storeBytes_quirks : (s.storeBytes a bs).quirks = s.quirks := rfl
@[simp] theorem State.getV_storeBytes (r : Reg) : (s.storeBytes a bs).getV r = s.getV r := rfl

end storeBytes

section advance

@[simp] theorem State.advance_v : s.advance.v = s.v := rfl
@[simp] theorem State.advance_i : s.advance.i = s.i := rfl
@[simp] theorem State.advance_pc : s.advance.pc = s.pc + 2 := rfl
@[simp] theorem State.advance_stack : s.advance.stack = s.stack := rfl
@[simp] theorem State.advance_sp : s.advance.sp = s.sp := rfl
@[simp] theorem State.advance_dt : s.advance.dt = s.dt := rfl
@[simp] theorem State.advance_st : s.advance.st = s.st := rfl
@[simp] theorem State.advance_disp : s.advance.disp = s.disp := rfl
@[simp] theorem State.advance_keys : s.advance.keys = s.keys := rfl
@[simp] theorem State.advance_mode : s.advance.mode = s.mode := rfl
@[simp] theorem State.advance_rng : s.advance.rng = s.rng := rfl
@[simp] theorem State.advance_mem : s.advance.mem = s.mem := rfl
@[simp] theorem State.advance_quirks : s.advance.quirks = s.quirks := rfl
@[simp] theorem State.getV_advance (r : Reg) : s.advance.getV r = s.getV r := rfl
@[simp] theorem State.byteAt_advance (n : Nat) : s.advance.byteAt n = s.byteAt n := rfl

end advance

section raise

variable (r : FaultReason)

@[simp] theorem State.raise_v : (s.raise r).v = s.v := rfl
@[simp] theorem State.raise_i : (s.raise r).i = s.i := rfl
@[simp] theorem State.raise_pc : (s.raise r).pc = s.pc := rfl
@[simp] theorem State.raise_stack : (s.raise r).stack = s.stack := rfl
@[simp] theorem State.raise_sp : (s.raise r).sp = s.sp := rfl
@[simp] theorem State.raise_dt : (s.raise r).dt = s.dt := rfl
@[simp] theorem State.raise_st : (s.raise r).st = s.st := rfl
@[simp] theorem State.raise_disp : (s.raise r).disp = s.disp := rfl
@[simp] theorem State.raise_keys : (s.raise r).keys = s.keys := rfl
@[simp] theorem State.raise_mode : (s.raise r).mode = .halted r := rfl
@[simp] theorem State.raise_rng : (s.raise r).rng = s.rng := rfl
@[simp] theorem State.raise_mem : (s.raise r).mem = s.mem := rfl
@[simp] theorem State.raise_quirks : (s.raise r).quirks = s.quirks := rfl
@[simp] theorem State.getV_raise (x : Reg) : (s.raise r).getV x = s.getV x := rfl
@[simp] theorem State.byteAt_raise (n : Nat) : (s.raise r).byteAt n = s.byteAt n := rfl

end raise

section setFlag

variable (f : Bool)

@[simp] theorem State.setFlag_i : (s.setFlag f).i = s.i := rfl
@[simp] theorem State.setFlag_pc : (s.setFlag f).pc = s.pc := rfl
@[simp] theorem State.setFlag_stack : (s.setFlag f).stack = s.stack := rfl
@[simp] theorem State.setFlag_sp : (s.setFlag f).sp = s.sp := rfl
@[simp] theorem State.setFlag_dt : (s.setFlag f).dt = s.dt := rfl
@[simp] theorem State.setFlag_st : (s.setFlag f).st = s.st := rfl
@[simp] theorem State.setFlag_disp : (s.setFlag f).disp = s.disp := rfl
@[simp] theorem State.setFlag_keys : (s.setFlag f).keys = s.keys := rfl
@[simp] theorem State.setFlag_mode : (s.setFlag f).mode = s.mode := rfl
@[simp] theorem State.setFlag_rng : (s.setFlag f).rng = s.rng := rfl
@[simp] theorem State.setFlag_mem : (s.setFlag f).mem = s.mem := rfl
@[simp] theorem State.setFlag_quirks : (s.setFlag f).quirks = s.quirks := rfl
@[simp] theorem State.byteAt_setFlag (n : Nat) : (s.setFlag f).byteAt n = s.byteAt n := rfl

end setFlag

section setResultAndFlag

variable (x : Reg) (b : Byte) (f : Bool)

@[simp] theorem State.setResultAndFlag_i : (s.setResultAndFlag x b f).i = s.i := rfl
@[simp] theorem State.setResultAndFlag_pc : (s.setResultAndFlag x b f).pc = s.pc := rfl
@[simp] theorem State.setResultAndFlag_stack : (s.setResultAndFlag x b f).stack = s.stack := rfl
@[simp] theorem State.setResultAndFlag_sp : (s.setResultAndFlag x b f).sp = s.sp := rfl
@[simp] theorem State.setResultAndFlag_dt : (s.setResultAndFlag x b f).dt = s.dt := rfl
@[simp] theorem State.setResultAndFlag_st : (s.setResultAndFlag x b f).st = s.st := rfl
@[simp] theorem State.setResultAndFlag_disp : (s.setResultAndFlag x b f).disp = s.disp := rfl
@[simp] theorem State.setResultAndFlag_keys : (s.setResultAndFlag x b f).keys = s.keys := rfl
@[simp] theorem State.setResultAndFlag_mode : (s.setResultAndFlag x b f).mode = s.mode := rfl
@[simp] theorem State.setResultAndFlag_rng : (s.setResultAndFlag x b f).rng = s.rng := rfl
@[simp] theorem State.setResultAndFlag_mem : (s.setResultAndFlag x b f).mem = s.mem := rfl
@[simp] theorem State.setResultAndFlag_quirks : (s.setResultAndFlag x b f).quirks = s.quirks := rfl
@[simp] theorem State.byteAt_setResultAndFlag (n : Nat) : (s.setResultAndFlag x b f).byteAt n = s.byteAt n := rfl

end setResultAndFlag

section draw

@[simp] theorem State.draw_v : s.draw.2.v = s.v := rfl
@[simp] theorem State.draw_i : s.draw.2.i = s.i := rfl
@[simp] theorem State.draw_pc : s.draw.2.pc = s.pc := rfl
@[simp] theorem State.draw_stack : s.draw.2.stack = s.stack := rfl
@[simp] theorem State.draw_sp : s.draw.2.sp = s.sp := rfl
@[simp] theorem State.draw_dt : s.draw.2.dt = s.dt := rfl
@[simp] theorem State.draw_st : s.draw.2.st = s.st := rfl
@[simp] theorem State.draw_disp : s.draw.2.disp = s.disp := rfl
@[simp] theorem State.draw_keys : s.draw.2.keys = s.keys := rfl
@[simp] theorem State.draw_mode : s.draw.2.mode = s.mode := rfl
@[simp] theorem State.draw_rng : s.draw.2.rng = (Config.rngNext s.rng).2 := rfl
@[simp] theorem State.draw_mem : s.draw.2.mem = s.mem := rfl
@[simp] theorem State.draw_quirks : s.draw.2.quirks = s.quirks := rfl
@[simp] theorem State.draw_byte : s.draw.1 = (Config.rngNext s.rng).1 := rfl

end draw

section skipIf

variable (c : Bool)

@[simp] theorem State.skipIf_v : (State.skipIf c s).v = s.v := by cases c <;> rfl
@[simp] theorem State.skipIf_i : (State.skipIf c s).i = s.i := by cases c <;> rfl
@[simp] theorem State.skipIf_pc : (State.skipIf c s).pc = if c then s.pc + 2 else s.pc := by cases c <;> rfl
@[simp] theorem State.skipIf_stack : (State.skipIf c s).stack = s.stack := by cases c <;> rfl
@[simp] theorem State.skipIf_sp : (State.skipIf c s).sp = s.sp := by cases c <;> rfl
@[simp] theorem State.skipIf_dt : (State.skipIf c s).dt = s.dt := by cases c <;> rfl
@[simp] theorem State.skipIf_st : (State.skipIf c s).st = s.st := by cases c <;> rfl
@[simp] theorem State.skipIf_disp : (State.skipIf c s).disp = s.disp := by cases c <;> rfl
@[simp] theorem State.skipIf_keys : (State.skipIf c s).keys = s.keys := by cases c <;> rfl
@[simp] theorem State.skipIf_mode : (State.skipIf c s).mode = s.mode := by cases c <;> rfl
@[simp] theorem State.skipIf_rng : (State.skipIf c s).rng = s.rng := by cases c <;> rfl
@[simp] theorem State.skipIf_mem : (State.skipIf c s).mem = s.mem := by cases c <;> rfl
@[simp] theorem State.skipIf_quirks : (State.skipIf c s).quirks = s.quirks := by cases c <;> rfl

end skipIf

section bumpI

variable (x : Reg)

@[simp] theorem State.bumpI_v : (s.bumpI x).v = s.v := by unfold State.bumpI; split <;> rfl
@[simp] theorem State.bumpI_i :
    (s.bumpI x).i = if s.quirks.memopIIncrement then s.i + BitVec.ofNat 16 (x.val + 1) else s.i := by
  unfold State.bumpI; split <;> rfl
@[simp] theorem State.bumpI_pc : (s.bumpI x).pc = s.pc := by unfold State.bumpI; split <;> rfl
@[simp] theorem State.bumpI_stack : (s.bumpI x).stack = s.stack := by unfold State.bumpI; split <;> rfl
@[simp] theorem State.bumpI_sp : (s.bumpI x).sp = s.sp := by unfold State.bumpI; split <;> rfl
@[simp] theorem State.bumpI_dt : (s.bumpI x).dt = s.dt := by unfold State.bumpI; split <;> rfl
@[simp] theorem State.bumpI_st : (s.bumpI x).st = s.st := by unfold State.bumpI; split <;> rfl
@[simp] theorem State.bumpI_disp : (s.bumpI x).disp = s.disp := by unfold State.bumpI; split <;> rfl
@[simp] theorem State.bumpI_keys : (s.bumpI x).keys = s.keys := by unfold State.bumpI; split <;> rfl
@[simp] theorem State.bumpI_mode : (s.bumpI x).mode = s.mode := by unfold State.bumpI; split <;> rfl
@[simp] theorem State.bumpI_rng : (s.bumpI x).rng = s.rng := by unfold State.bumpI; split <;> rfl
@[simp] theorem State.bumpI_mem : (s.bumpI x).mem = s.mem := by unfold State.bumpI; split <;> rfl
@[simp] theorem State.bumpI_quirks : (s.bumpI x).quirks = s.quirks := by unfold State.bumpI; split <;> rfl

end bumpI

/-- Writing a register and reading one. -/
theorem State.getV_setV (x r : Reg) (b : Byte) : (s.setV x b).getV r = if x = r then b else s.getV r := by
  simp [State.getV, Vector.getElem_set, Fin.ext_iff]

@[simp] theorem State.getV_setV_same (x : Reg) (b : Byte) : (s.setV x b).getV x = b := by simp [State.getV_setV]

theorem State.getV_setV_other {x r : Reg} (h : x ≠ r) (b : Byte) : (s.setV x b).getV r = s.getV r := by
  simp [State.getV_setV, h]

/-- A register reads the same in two states with the same register file. -/
theorem State.getV_congr {s t : State} (h : t.v = s.v) (r : Reg) : t.getV r = s.getV r := by simp [State.getV, h]

/-- A byte reads the same in two states with the same memory. -/
theorem State.byteAt_congr {s t : State} (h : t.mem = s.mem) (a : Nat) : t.byteAt a = s.byteAt a := by
  simp [State.byteAt, h]

/-- Two states with equal register files register by register have equal register files. -/
theorem State.v_ext {s t : State} (h : ∀ r, t.getV r = s.getV r) : t.v = s.v := by
  apply Vector.ext
  intro k hk
  exact h ⟨k, hk⟩

end Sys2Proof.Machine
end

