-- ==== Sys2Proof/Laws/Ops.lean ====
section
/-! SUPPORT. For each shared operation, one lemma that says what it can do: the range check, push and pop, the fetch,
the block transfers, the stores, placing a word, the end of a key wait. -/

namespace Sys2Proof.Machine

variable (s : State)

/-- The range check either lets the effect through or enters the fault (R36, R47). -/
theorem State.ifInRange_cases (n : Nat) (t : State) :
    (inRange s.i.toNat n = true ∧ s.ifInRange n t = t) ∨
    (inRange s.i.toNat n = false ∧ s.ifInRange n t = s.raise .addressOutOfRange) := by
  unfold State.ifInRange
  cases inRange s.i.toNat n <;> simp

theorem State.ifInRange_of_le {n : Nat} (t : State) (h : n = 0 ∨ s.i.toNat + n ≤ 4096) : s.ifInRange n t = t := by
  rw [State.ifInRange, if_pos ((inRange_iff _ _).2 h)]

theorem State.ifInRange_of_gt {n : Nat} (t : State) (h : 0 < n ∧ 4096 < s.i.toNat + n) :
    s.ifInRange n t = s.raise .addressOutOfRange := by
  rw [State.ifInRange, if_neg (by rw [inRange_iff]; omega)]

/-- A push with room (R65). -/
theorem State.push_ok (w : Word) (h : s.sp.val < 16) :
    s.push w = .ok { s with stack := s.stack.set s.sp.val w, sp := ⟨s.sp.val + 1, by omega⟩ } := by
  simp [State.push, h]

/-- A push with none (R65). -/
theorem State.push_full (w : Word) (h : s.sp = 16) : s.push w = .error .stackOverflow := by
  simp [State.push, h]

/-- A pop of a held address (R63). -/
theorem State.pop_ok (h : 0 < s.sp.val) :
    s.pop = .ok (s.stack[s.sp.val - 1]'(by omega), { s with sp := ⟨s.sp.val - 1, by omega⟩ }) := by
  simp [State.pop, h]

/-- A pop of none (R63). -/
theorem State.pop_empty (h : s.sp = 0) : s.pop = .error .stackUnderflow := by
  simp [State.pop, h]

/-- The fetch either gives the word at `pc` and the advanced state or the range fault (R61). -/
theorem State.fetch_cases :
    (s.pc.toNat + 1 < 4096 ∧ s.fetch = .ok (s.wordAtPc, s.advance)) ∨
    (4096 ≤ s.pc.toNat + 1 ∧ s.fetch = .error .addressOutOfRange) := by
  unfold State.fetch
  split
  · exact .inl ⟨‹_›, rfl⟩
  · exact .inr ⟨Nat.le_of_not_lt ‹_›, rfl⟩

/-- The fetched word as a number: the byte at `pc` is its high byte (R39). -/
theorem State.wordAtPc_toNat :
    s.wordAtPc.toNat = (s.byteAt s.pc.toNat).toNat * 256 + (s.byteAt (s.pc.toNat + 1)).toNat :=
  wordOfBytes_toNat _ _

/-- Bytes outside the ones stored are as before. -/
theorem State.byteAt_storeBytes_outside (a : Nat) (bs : List Byte) {c : Nat} (h : c < a ∨ a + bs.length ≤ c) :
    (s.storeBytes a bs).byteAt c = s.byteAt c :=
  Mem.read_writeAll_outside bs s.mem a h

/-- The bytes stored are read back. -/
theorem State.byteAt_storeBytes_inside (hm : s.mem.wf = true) {a : Nat} {bs : List Byte}
    (ha : a + bs.length ≤ 4096) {k : Nat} (h : k < bs.length) : (s.storeBytes a bs).byteAt (a + k) = bs[k] :=
  Mem.read_writeAll_inside bs hm ha h

theorem State.wf_storeBytes (hm : s.mem.wf = true) {a : Nat} {bs : List Byte} (ha : a + bs.length ≤ 4096) :
    (s.storeBytes a bs).mem.wf = true :=
  Mem.wf_writeAll bs hm ha

theorem fetchSlot_bound : s.fetchSlot.toNat + 1 < 4096 := by
  unfold State.fetchSlot
  split
  · exact ‹_›
  · decide

/-- A placed word is the one the next fetch reads. -/
theorem State.wordAtPc_placeWord (hm : s.mem.wf = true) (w : Word) : (s.placeWord w).wordAtPc = w := by
  have hb := fetchSlot_bound s
  have hm' : ((s.jumpTo s.fetchSlot).setMode .running).mem.wf = true := hm
  have hlen : s.fetchSlot.toNat + [highByte w, lowByte w].length ≤ 4096 := by simp; omega
  have h0 := State.byteAt_storeBytes_inside _ hm' hlen (k := 0) (by simp)
  have h1 := State.byteAt_storeBytes_inside _ hm' hlen (k := 1) (by simp)
  rw [State.wordAtPc]
  show wordOfBytes ((s.placeWord w).byteAt (s.fetchSlot.toNat + 0)) ((s.placeWord w).byteAt (s.fetchSlot.toNat + 1)) = w
  rw [State.placeWord, h0, h1]
  exact wordOfBytes_halves w

@[simp] theorem length_blockRegs (x : Reg) : (blockRegs x).length = x.val + 1 := by
  simp [blockRegs]; omega

/-- The k-th register of a block is `V[k]`. -/
theorem getElem_blockRegs (x : Reg) {k : Nat} (h : k < (blockRegs x).length) :
    (blockRegs x)[k] = ⟨k, by rw [length_blockRegs] at h; omega⟩ := by
  revert k x; decide

/-- A register is in the block exactly when its number is at most `x`. -/
theorem mem_blockRegs (x r : Reg) : r ∈ blockRegs x ↔ r.val ≤ x.val := by
  revert x r; decide

@[simp] theorem State.length_blockBytes (x : Reg) : (s.blockBytes x).length = x.val + 1 := by
  simp [State.blockBytes]

theorem State.getElem_blockBytes (x : Reg) {k : Nat} (h : k < (s.blockBytes x).length) :
    (s.blockBytes x)[k] = s.getV ⟨k, by rw [State.length_blockBytes] at h; omega⟩ := by
  simp [State.blockBytes, getElem_blockRegs]

/-- A fold of register writes: each register named receives its value, the others keep theirs. -/
theorem State.getV_foldl_setV (f : Reg → Byte) (rs : List Reg) :
    ∀ (t : State) (r : Reg), (rs.foldl (fun t k => t.setV k (f k)) t).getV r = if r ∈ rs then f r else t.getV r := by
  induction rs with
  | nil => intros; simp
  | cons k rs ih =>
    intro t r
    rw [List.foldl_cons, ih, State.getV_setV]
    by_cases hr : r ∈ rs
    · simp [hr]
    · by_cases hk : k = r
      · subst hk; simp
      · simp [hr, hk, Ne.symm hk]

/-- What a fold of register writes leaves alone: everything but the register file. -/
theorem State.foldl_setV_eq (f : Reg → Byte) (rs : List Reg) :
    ∀ t : State, rs.foldl (fun t k => t.setV k (f k)) t =
      { t with v := (rs.foldl (fun t k => t.setV k (f k)) t).v } := by
  induction rs with
  | nil => intro t; rfl
  | cons k rs ih => intro t; rw [List.foldl_cons, ih]; rfl

/-- What a block load reads into each register (R95). -/
theorem State.getV_loadBlock (x r : Reg) :
    (s.loadBlock x).getV r = if r.val ≤ x.val then s.byteAt (s.i.toNat + r.val) else s.getV r := by
  have h := State.getV_foldl_setV (fun k => s.byteAt (s.effectiveAddr k.val)) (blockRegs x) s r
  simp only [mem_blockRegs] at h
  exact h

/-- A block load changes the register file only. -/
theorem State.loadBlock_eq (x : Reg) : s.loadBlock x = { s with v := (s.loadBlock x).v } :=
  State.foldl_setV_eq (fun k => s.byteAt (s.effectiveAddr k.val)) (blockRegs x) s

@[simp] theorem length_bcdDigits (b : Byte) : (bcdDigits b).length = 3 := rfl

@[simp] theorem addrOf_toNat (nnn : Addr12) : (addrOf nnn).toNat = nnn.toNat := by
  have := nnn.isLt
  simp [addrOf]; omega

theorem lowNibble_val (b : Byte) : (lowNibble b).val = b.toNat % 16 := by simp [lowNibble]

@[simp] theorem glyphAddr_toNat (b : Byte) : (glyphAddr b).toNat = 5 * (b.toNat % 16) := by
  have h : (lowNibble b).val = b.toNat % 16 := lowNibble_val b
  simp only [glyphAddr, BitVec.toNat_ofNat, h, Config.fontBase, Config.glyphBytes]
  omega

/-- A flag is 0 or 1 (R11). -/
theorem flagByte_cases (f : Bool) : flagByte f = 0 ∨ flagByte f = 1 := by cases f <;> simp [flagByte]

/-- VF after a result and a flag are written is the flag, whichever register the result went to (R75). -/
@[simp] theorem State.getV_setResultAndFlag_vf (x : Reg) (b : Byte) (f : Bool) :
    (s.setResultAndFlag x b f).getV 15 = flagByte f :=
  State.getV_setV_same _ _ _

/-- A register other than VF after a result and a flag are written. -/
theorem State.getV_setResultAndFlag {r : Reg} (h : r ≠ 15) (x : Reg) (b : Byte) (f : Bool) :
    (s.setResultAndFlag x b f).getV r = if x = r then b else s.getV r := by
  rw [State.setResultAndFlag, State.setFlag, State.getV_setV_other _ (Ne.symm h), State.getV_setV]

end Sys2Proof.Machine
end

