-- ==== Sys2Proof/Laws/Display.lean ====
section
/-! SUPPORT. The display: what a pixel reads as after one is toggled, after one sprite pixel, one sprite row and a
whole sprite are drawn, and when a collision is reported. -/

namespace Sys2Proof.Machine

theorem Display.pixel_inside (d : Display) {py px : Nat} (hy : py < 32) (hx : px < 64) :
    d.pixel py px = d[py][px] := by
  simp [Display.pixel, hy, hx]

theorem Display.pixel_outside (d : Display) {py px : Nat} (h : ¬(py < 32 ∧ px < 64)) : d.pixel py px = false := by
  simp [Display.pixel, h]

/-- Two displays with the same pixels are the same. -/
theorem Display.ext_pixel {d e : Display} (h : ∀ py px, d.pixel py px = e.pixel py px) : d = e := by
  apply Vector.ext
  intro y hy
  apply Vector.ext
  intro x hx
  have := h y x
  rwa [Display.pixel_inside d hy hx, Display.pixel_inside e hy hx] at this

@[simp] theorem Display.pixel_clear (py px : Nat) : Display.clear.pixel py px = false := by
  unfold Display.pixel
  split <;> simp [Display.clear]

/-- Toggling flips one pixel of the display and leaves the others. -/
theorem Display.pixel_toggle (d : Display) (py px qy qx : Nat) :
    (d.toggle py px).pixel qy qx = (d.pixel qy qx ^^ decide (qy = py ∧ qx = px ∧ py < 32 ∧ px < 64)) := by
  unfold Display.toggle
  split
  · rename_i h
    by_cases hq : qy < 32 ∧ qx < 64
    · rw [Display.pixel_inside _ hq.1 hq.2, Display.pixel_inside _ hq.1 hq.2]
      by_cases hy : py = qy
      · subst hy
        by_cases hx : px = qx
        · subst hx; simp [h]
        · simp [hx, Ne.symm hx]
      · simp [hy, Ne.symm hy]
    · rw [Display.pixel_outside _ hq, Display.pixel_outside _ hq]
      simp; omega
  · rename_i h
    rw [decide_eq_false (by omega), Bool.xor_false]

/-- One sprite pixel: it toggles exactly when it is a 1 bit inside the display. -/
theorem pixel_blitPixel (py px : Nat) (bit : Bool) (acc : Display × Bool) (qy qx : Nat) :
    (blitPixel py px bit acc).1.pixel qy qx =
      (acc.1.pixel qy qx ^^ (bit && decide (qy = py ∧ qx = px ∧ py < 32 ∧ px < 64))) := by
  unfold blitPixel
  split
  · rename_i h
    simp only [Bool.and_eq_true, decide_eq_true_eq] at h
    rw [Display.pixel_toggle, h.1.1, Bool.true_and]
  · rename_i h
    cases bit
    · simp
    · have : ¬(qy = py ∧ qx = px ∧ py < 32 ∧ px < 64) := by simp at h; omega
      rw [decide_eq_false this, Bool.and_false, Bool.xor_false]

/-- One sprite pixel collides exactly when it is a 1 bit on a lit pixel of the display. -/
theorem collision_blitPixel (py px : Nat) (bit : Bool) (acc : Display × Bool) :
    (blitPixel py px bit acc).2 = (acc.2 || (bit && acc.1.pixel py px)) := by
  unfold blitPixel
  split
  · rename_i h
    simp only [Bool.and_eq_true, decide_eq_true_eq] at h
    rw [h.1.1, Bool.true_and]
  · rename_i h
    cases bit
    · simp
    · rw [Display.pixel_outside _ (by simp at h; omega)]
      simp

/-- The columns `0` to `k - 1` of a sprite row. -/
theorem blitRow_prefix (py x0 : Nat) (b : Byte) (acc : Display × Bool) (k : Nat) :
    let out := (List.range k).foldl (fun acc c => blitPixel py (x0 + c) (b.getLsbD (7 - c)) acc) acc
    (∀ qy qx, out.1.pixel qy qx =
      (acc.1.pixel qy qx ^^
        (decide (qy = py ∧ x0 ≤ qx ∧ qx < x0 + k ∧ py < 32 ∧ qx < 64) && b.getLsbD (7 - (qx - x0))))) ∧
    (out.2 = true ↔ acc.2 = true ∨ ∃ c, c < k ∧ b.getLsbD (7 - c) = true ∧ acc.1.pixel py (x0 + c) = true) := by
  induction k with
  | zero =>
    refine ⟨fun qy qx => ?_, by simp⟩
    rw [decide_eq_false (by omega), Bool.false_and, Bool.xor_false]
    rfl
  | succ k ih =>
    simp only [List.range_succ, List.foldl_append, List.foldl_cons, List.foldl_nil] at ih ⊢
    obtain ⟨hp, hc⟩ := ih
    refine ⟨fun qy qx => ?_, ?_⟩
    · rw [pixel_blitPixel, hp]
      by_cases hk : qx = x0 + k
      · subst hk
        have h1 : ¬(qy = py ∧ x0 ≤ x0 + k ∧ x0 + k < x0 + k ∧ py < 32 ∧ x0 + k < 64) := by omega
        have h2 : (qy = py ∧ x0 ≤ x0 + k ∧ x0 + k < x0 + (k + 1) ∧ py < 32 ∧ x0 + k < 64) ↔
            (qy = py ∧ x0 + k = x0 + k ∧ py < 32 ∧ x0 + k < 64) := by omega
        rw [decide_eq_false h1, decide_eq_decide.2 h2, Bool.false_and, Bool.xor_false, Nat.add_sub_cancel_left,
          Bool.and_comm]
      · have h1 : (qy = py ∧ x0 ≤ qx ∧ qx < x0 + (k + 1) ∧ py < 32 ∧ qx < 64) ↔
            (qy = py ∧ x0 ≤ qx ∧ qx < x0 + k ∧ py < 32 ∧ qx < 64) := by omega
        have h2 : ¬(qy = py ∧ qx = x0 + k ∧ py < 32 ∧ x0 + k < 64) := by omega
        rw [decide_eq_decide.2 h1, decide_eq_false h2, Bool.and_false, Bool.xor_false]
    · rw [collision_blitPixel, Bool.or_eq_true, hc, Bool.and_eq_true, hp, decide_eq_false (by omega), Bool.false_and,
        Bool.xor_false]
      constructor
      · rintro ((h | ⟨c, hc, h⟩) | h)
        · exact .inl h
        · exact .inr ⟨c, by omega, h⟩
        · exact .inr ⟨k, by omega, h⟩
      · rintro (h | ⟨c, hc, h⟩)
        · exact .inl (.inl h)
        · by_cases hck : c = k
          · subst hck; exact .inr h
          · exact .inl (.inr ⟨c, by omega, h⟩)

/-- What the bytes of a sprite have for the display's pixel (py, px), when it is drawn at (x0, y0). -/
def spriteBit (x0 y0 : Nat) (bs : List Byte) (py px : Nat) : Bool :=
  decide (y0 ≤ py ∧ x0 ≤ px ∧ px < x0 + 8) && ((bs[py - y0]?).any fun b => b.getLsbD (7 - (px - x0)))

/-- A sprite row by row: every pixel of the display is its old value XOR the sprite's bit for it, and there is a
collision exactly when a 1 bit of the sprite falls on a lit pixel. -/
theorem blitRows_spec (x0 : Nat) (bs : List Byte) : ∀ (y0 : Nat) (acc : Display × Bool),
    (∀ py px, py < 32 → px < 64 →
      (blitRows x0 y0 bs acc).1.pixel py px = (acc.1.pixel py px ^^ spriteBit x0 y0 bs py px)) ∧
    ((blitRows x0 y0 bs acc).2 = true ↔
      acc.2 = true ∨ ∃ py px, acc.1.pixel py px = true ∧ spriteBit x0 y0 bs py px = true) := by
  induction bs with
  | nil => intro y0 acc; simp [blitRows, spriteBit]
  | cons b bs ih =>
    intro y0 acc
    obtain ⟨hp, hc⟩ := blitRow_prefix y0 x0 b acc 8
    change (∀ qy qx, (blitRow y0 x0 b acc).1.pixel qy qx = _) at hp
    change ((blitRow y0 x0 b acc).2 = true ↔ _) at hc
    obtain ⟨ip, ic⟩ := ih (y0 + 1) (blitRow y0 x0 b acc)
    have split_bit : ∀ py px, spriteBit x0 y0 (b :: bs) py px =
        if py = y0 then decide (x0 ≤ px ∧ px < x0 + 8) && b.getLsbD (7 - (px - x0))
        else spriteBit x0 (y0 + 1) bs py px := by
      intro py px
      unfold spriteBit
      split
      · subst_vars; simp
      · by_cases hlt : y0 ≤ py
        · obtain ⟨k, rfl⟩ : ∃ k, py = y0 + 1 + k := ⟨py - (y0 + 1), by omega⟩
          rw [show y0 + 1 + k - y0 = k + 1 by omega, show y0 + 1 + k - (y0 + 1) = k by omega]
          simp only [List.getElem?_cons_succ]
          congr 1
          rw [decide_eq_decide]
          omega
        · have h1 : ¬(y0 ≤ py ∧ x0 ≤ px ∧ px < x0 + 8) := by omega
          have h2 : ¬(y0 + 1 ≤ py ∧ x0 ≤ px ∧ px < x0 + 8) := by omega
          rw [decide_eq_false h1, decide_eq_false h2, Bool.false_and, Bool.false_and]
    refine ⟨fun py px hy hx => ?_, ?_⟩
    · rw [blitRows, ip py px hy hx, hp, split_bit]
      split
      · subst_vars
        have h1 : spriteBit x0 (py + 1) bs py px = false := by simp [spriteBit]
        simp [h1, hy, hx]
      · rename_i hne
        simp [hne]
    · rw [blitRows, ic, hc]
      constructor
      · rintro ((h | ⟨c, hlt, hb, hl⟩) | ⟨py, px, hl, hb⟩)
        · exact .inl h
        · refine .inr ⟨y0, x0 + c, hl, ?_⟩
          rw [split_bit, if_pos rfl]
          simp [hb]; omega
        · have hne : py ≠ y0 := by
            intro h; subst h; simp [spriteBit] at hb
          rw [hp] at hl
          refine .inr ⟨py, px, ?_, ?_⟩
          · simpa [hne] using hl
          · rw [split_bit, if_neg hne]; exact hb
      · rintro (h | ⟨py, px, hl, hb⟩)
        · exact .inl (.inl h)
        · rw [split_bit] at hb
          split at hb
          · subst_vars
            simp only [Bool.and_eq_true, decide_eq_true_eq] at hb
            refine .inl (.inr ⟨px - x0, by omega, hb.2, ?_⟩)
            rwa [show x0 + (px - x0) = px by omega]
          · rename_i hne
            refine .inr ⟨py, px, ?_, hb⟩
            rw [hp]
            simpa [hne] using hl

/-- The sprite's bytes are the `n` bytes at `I` (R113), so the bits of the blit are those of `spriteCovers`. -/
theorem State.spriteBit_spriteBytes (s : State) (x y : Reg) (n : Rows) (py px : Nat) :
    spriteBit (startColumn (s.getV x)) (startRow (s.getV y)) (s.spriteBytes n.val) py px = s.spriteCovers x y n py px := by
  unfold spriteBit State.spriteBytes startColumn startRow State.effectiveAddr State.spriteCovers
  simp only [Config.displayW, Config.displayH, List.getElem?_map]
  by_cases h : py - (s.getV y).toNat % 32 < n.val
  · rw [List.getElem?_range h]
    simp only [Option.map_some, Option.any_some]
    congr 1
    simp only [decide_eq_decide]
    omega
  · rw [List.getElem?_eq_none (by simpa using h)]
    simp only [Option.map_none, Option.any_none, Bool.and_false]
    symm
    rw [Bool.and_eq_false_iff]
    left
    simp only [decide_eq_false_iff_not]
    omega

/-- The drawing of one `DRW`, pixel by pixel (R112). -/
theorem State.blit_spec (s : State) (x y : Reg) (n : Rows) :
    (∀ py px, py < 32 → px < 64 →
      (s.blit x y n.val).1.pixel py px = (s.disp.pixel py px ^^ s.spriteCovers x y n py px)) ∧
    ((s.blit x y n.val).2 = true ↔
      ∃ py px, s.disp.pixel py px = true ∧ s.spriteCovers x y n py px = true) := by
  have h := blitRows_spec (startColumn (s.getV x)) (s.spriteBytes n.val) (startRow (s.getV y)) (s.disp, false)
  simp only [State.spriteBit_spriteBytes, Bool.false_eq_true, false_or] at h
  exact h

/-- Pieces of one length laid end to end: the j-th element of the k-th piece. -/
theorem getElem?_flatMap_uniform {α β : Type} (f : α → List β) {n : Nat} (hf : ∀ a, (f a).length = n) (l : List α) :
    ∀ (k : Nat) {j : Nat}, j < n → (l.flatMap f)[k * n + j]? = l[k]?.bind fun a => (f a)[j]? := by
  induction l with
  | nil => intros; simp
  | cons a l ih =>
    intro k j hj
    rw [List.flatMap_cons]
    cases k with
    | zero => rw [Nat.zero_mul, Nat.zero_add, List.getElem?_append_left (by rw [hf]; exact hj)]; rfl
    | succ k =>
      rw [List.getElem?_append_right (by rw [hf, Nat.succ_mul]; omega), hf,
        show (k + 1) * n + j - n = k * n + j by rw [Nat.succ_mul]; omega, ih k hj]
      rfl

/-- Pieces of one length laid end to end: the length of the whole. -/
theorem length_flatMap_uniform {α β : Type} (f : α → List β) {n : Nat} (hf : ∀ a, (f a).length = n) (l : List α) :
    (l.flatMap f).length = l.length * n := by
  simp [List.length_flatMap, hf]

@[simp] theorem length_pixelBytes (off on : Colour) (lit : Bool) : (pixelBytes off on lit).length = 4 := by
  cases lit <;> rfl

end Sys2Proof.Machine
end

