-- ==== Sys2Proof/Laws/PerInstr.lean ====
section
/-! SUPPORT. The family EncodesInRow: the word of every instruction is selected by the instruction's own row of the
opcode table (rule R54), one lemma per constructor. -/

namespace Sys2Proof.Laws.EncodesInRow

/-- The instruction's word is selected by its own row, and that row is in the table. -/
def Statement (i : Instr) : Prop := i.row.selects (encode i) = true ∧ i.row ∈ opcodeTable

variable (nnn : Addr12) (x y : Reg) (nn : Byte) (n : Rows)

theorem nnn_selects (op : BitVec 4) (name : String) (pattern : Word) (h : wordNNN op 0 = pattern) :
    OpcodeRow.selects ⟨name, 0xF000, pattern⟩ (wordNNN op nnn) = true := by
  rw [OpcodeRow.selects, wordNNN_mask, h, beq_self_eq_true]

theorem x_selects (op : BitVec 4) (name : String) (pattern : Word) (h : wordXNN op 0 nn = pattern) :
    OpcodeRow.selects ⟨name, 0xF0FF, pattern⟩ (wordXNN op x nn) = true := by
  rw [OpcodeRow.selects, wordXNN_mask, h, beq_self_eq_true]

theorem xy_selects (op : BitVec 4) (name : String) (pattern : Word) (h : wordXYN op 0 0 n = pattern) :
    OpcodeRow.selects ⟨name, 0xF00F, pattern⟩ (wordXYN op x y n) = true := by
  rw [OpcodeRow.selects, wordXYN_mask, h, beq_self_eq_true]

theorem cls : Statement .cls := by unfold Statement; decide
theorem ret : Statement .ret := by unfold Statement; decide
theorem jp : Statement (.jp nnn) := ⟨nnn_selects _ _ _ _ rfl, (by decide : (Instr.jp 0).row ∈ opcodeTable)⟩
theorem call : Statement (.call nnn) := ⟨nnn_selects _ _ _ _ rfl, (by decide : (Instr.call 0).row ∈ opcodeTable)⟩
theorem seImm : Statement (.seImm x nn) := ⟨nnn_selects _ _ _ _ rfl, (by decide : (Instr.seImm 0 0).row ∈ opcodeTable)⟩
theorem sneImm : Statement (.sneImm x nn) := ⟨nnn_selects _ _ _ _ rfl, (by decide : (Instr.sneImm 0 0).row ∈ opcodeTable)⟩
theorem seReg : Statement (.seReg x y) := ⟨xy_selects _ _ _ _ _ _ rfl, (by decide : (Instr.seReg 0 0).row ∈ opcodeTable)⟩
theorem ldImm : Statement (.ldImm x nn) := ⟨nnn_selects _ _ _ _ rfl, (by decide : (Instr.ldImm 0 0).row ∈ opcodeTable)⟩
theorem addImm : Statement (.addImm x nn) := ⟨nnn_selects _ _ _ _ rfl, (by decide : (Instr.addImm 0 0).row ∈ opcodeTable)⟩
theorem ldReg : Statement (.ldReg x y) := ⟨xy_selects _ _ _ _ _ _ rfl, (by decide : (Instr.ldReg 0 0).row ∈ opcodeTable)⟩
theorem orReg : Statement (.orReg x y) := ⟨xy_selects _ _ _ _ _ _ rfl, (by decide : (Instr.orReg 0 0).row ∈ opcodeTable)⟩
theorem andReg : Statement (.andReg x y) := ⟨xy_selects _ _ _ _ _ _ rfl, (by decide : (Instr.andReg 0 0).row ∈ opcodeTable)⟩
theorem xorReg : Statement (.xorReg x y) := ⟨xy_selects _ _ _ _ _ _ rfl, (by decide : (Instr.xorReg 0 0).row ∈ opcodeTable)⟩
theorem addReg : Statement (.addReg x y) := ⟨xy_selects _ _ _ _ _ _ rfl, (by decide : (Instr.addReg 0 0).row ∈ opcodeTable)⟩
theorem subReg : Statement (.subReg x y) := ⟨xy_selects _ _ _ _ _ _ rfl, (by decide : (Instr.subReg 0 0).row ∈ opcodeTable)⟩
theorem shr : Statement (.shr x y) := ⟨xy_selects _ _ _ _ _ _ rfl, (by decide : (Instr.shr 0 0).row ∈ opcodeTable)⟩
theorem subnReg : Statement (.subnReg x y) := ⟨xy_selects _ _ _ _ _ _ rfl, (by decide : (Instr.subnReg 0 0).row ∈ opcodeTable)⟩
theorem shl : Statement (.shl x y) := ⟨xy_selects _ _ _ _ _ _ rfl, (by decide : (Instr.shl 0 0).row ∈ opcodeTable)⟩
theorem sneReg : Statement (.sneReg x y) := ⟨xy_selects _ _ _ _ _ _ rfl, (by decide : (Instr.sneReg 0 0).row ∈ opcodeTable)⟩
theorem ldI : Statement (.ldI nnn) := ⟨nnn_selects _ _ _ _ rfl, (by decide : (Instr.ldI 0).row ∈ opcodeTable)⟩
theorem jpV0 : Statement (.jpV0 nnn) := ⟨nnn_selects _ _ _ _ rfl, (by decide : (Instr.jpV0 0).row ∈ opcodeTable)⟩
theorem rnd : Statement (.rnd x nn) := ⟨nnn_selects _ _ _ _ rfl, (by decide : (Instr.rnd 0 0).row ∈ opcodeTable)⟩
theorem drw : Statement (.drw x y n) := ⟨nnn_selects _ _ _ _ rfl, (by decide : (Instr.drw 0 0 0).row ∈ opcodeTable)⟩
theorem skp : Statement (.skp x) := ⟨x_selects _ _ _ _ _ rfl, (by decide : (Instr.skp 0).row ∈ opcodeTable)⟩
theorem sknp : Statement (.sknp x) := ⟨x_selects _ _ _ _ _ rfl, (by decide : (Instr.sknp 0).row ∈ opcodeTable)⟩
theorem ldVxDT : Statement (.ldVxDT x) := ⟨x_selects _ _ _ _ _ rfl, (by decide : (Instr.ldVxDT 0).row ∈ opcodeTable)⟩
theorem ldVxK : Statement (.ldVxK x) := ⟨x_selects _ _ _ _ _ rfl, (by decide : (Instr.ldVxK 0).row ∈ opcodeTable)⟩
theorem ldDTVx : Statement (.ldDTVx x) := ⟨x_selects _ _ _ _ _ rfl, (by decide : (Instr.ldDTVx 0).row ∈ opcodeTable)⟩
theorem ldSTVx : Statement (.ldSTVx x) := ⟨x_selects _ _ _ _ _ rfl, (by decide : (Instr.ldSTVx 0).row ∈ opcodeTable)⟩
theorem addI : Statement (.addI x) := ⟨x_selects _ _ _ _ _ rfl, (by decide : (Instr.addI 0).row ∈ opcodeTable)⟩
theorem ldF : Statement (.ldF x) := ⟨x_selects _ _ _ _ _ rfl, (by decide : (Instr.ldF 0).row ∈ opcodeTable)⟩
theorem ldB : Statement (.ldB x) := ⟨x_selects _ _ _ _ _ rfl, (by decide : (Instr.ldB 0).row ∈ opcodeTable)⟩
theorem storeRegs : Statement (.storeRegs x) := ⟨x_selects _ _ _ _ _ rfl, (by decide : (Instr.storeRegs 0).row ∈ opcodeTable)⟩
theorem loadRegs : Statement (.loadRegs x) := ⟨x_selects _ _ _ _ _ rfl, (by decide : (Instr.loadRegs 0).row ∈ opcodeTable)⟩

end Sys2Proof.Laws.EncodesInRow
end

