-- ==== Sys2Proof/Laws/Step.lean ====
section
/-! SUPPORT. What one STEP and one event can do, said once: the inversion lemma of `step`, the STEPs of a
RUN one at a time, and schedules of events in parts. -/

namespace Sys2Proof.Machine

/-- Everything a STEP can do when it answers a next state (R60 to R62). -/
theorem step_cases {s t : State} (h : step s = .next t) :
    (s.mode ≠ .running ∧ t = s) ∨
    (s.mode = .running ∧ 4096 ≤ s.pc.toNat + 1 ∧ t = s.raise .addressOutOfRange) ∨
    (s.mode = .running ∧ s.pc.toNat + 1 < 4096 ∧ (∃ e, decodeWord s.wordAtPc = .error e) ∧
      t = s.advance.raise .unknownOpcode) ∨
    (s.mode = .running ∧ s.pc.toNat + 1 < 4096 ∧
      ∃ i, decodeWord s.wordAtPc = .ok i ∧ exec i s.advance = .next t) := by
  unfold step at h
  split at h
  · rename_i r hm; cases h; exact .inl ⟨by simp [hm], rfl⟩
  · rename_i r hm; cases h; exact .inl ⟨by simp [hm], rfl⟩
  · rename_i hm
    rcases s.fetch_cases with ⟨hp, hf⟩ | ⟨hp, hf⟩
    · rw [hf] at h
      simp only at h
      split at h
      · rename_i e he; cases h; exact .inr (.inr (.inl ⟨hm, hp, ⟨e, he⟩, rfl⟩))
      · rename_i i hi; exact .inr (.inr (.inr ⟨hm, hp, i, hi, h⟩))
    · rw [hf] at h
      cases h
      exact .inr (.inl ⟨hm, hp, rfl⟩)

/-- The STEPs of a RUN, one at a time, from a running machine. -/
theorem runSteps_succ_running {k : Nat} {s t : State} (hm : s.mode = .running) (h : step s = .next t) :
    runSteps (k + 1) s = runSteps k t := by
  simp only [runSteps, hm, h]

/-- The STEPs of a RUN when the machine does not run. -/
theorem runSteps_idle {k : Nat} {s : State} (h : s.mode ≠ .running) : runSteps k s = .next s := by
  cases k with
  | zero => rfl
  | succ k =>
    unfold runSteps
    split
    · rfl
    · rfl
    · rename_i hm; exact absurd hm h

/-- A schedule whose first event answers a next state. -/
theorem events_cons {e : Event} {es : List Event} {s t : State} (h : event e s = .next t) :
    events (e :: es) s = events es t := by
  simp only [events, h]

/-- A schedule in two parts. -/
theorem events_append {es fs : List Event} : ∀ {s t : State}, events es s = .next t →
    events (es ++ fs) s = events fs t := by
  induction es with
  | nil => intro s t h; cases h; rfl
  | cons e es ih =>
    intro s t h
    rw [List.cons_append]
    simp only [events] at h ⊢
    split at h
    · rename_i u hu; exact ih h
    · cases h
    · cases h

end Sys2Proof.Machine
end

