-- ==== Sys2Proof/Tests/Slice0.lean ====
section
/-! SUPPORT. The model's own tests. Expected results are the spec's vectors (95_test_vectors.md, the part is named at
each heading) or written out by hand from the rule named. A `test_` theorem checks one decoding or one step; a
`witness_` theorem shows inputs that meet the hypotheses of the obligation it is named after, at the ends of their
ranges. -/

namespace Sys2Proof.Tests

open Sys2Proof.Machine

/-- The reset state with one word where `pc` points, the start state of the spec's vectors. -/
def start (w : Word) : State := State.reset.placeWord w

/-- The reset state with both quirks at their other value. -/
def otherQuirks (s : State) : State := { s with quirks := { shiftSrc := .vy, memopIIncrement := true } }

/-- `V[0]`, `V[1]` and VF set. -/
def withV (s : State) (v0 v1 vf : Byte) : State := ((s.setV 0 v0).setV 1 v1).setV 15 vf

/-- What holds after one STEP. -/
def afterStep (s : State) (p : State → Bool) : Bool :=
  match step s with
  | .next t => p t
  | .fault _ => false
  | .refused _ => false

/-- What holds after a meaning. -/
def afterExec (i : Instr) (s : State) (p : State → Bool) : Bool :=
  match exec i s with
  | .next t => p t
  | .fault _ => false
  | .refused _ => false

/-- What holds after a schedule of events. -/
def afterEvents (es : List Event) (s : State) (p : State → Bool) : Bool :=
  match events es s with
  | .next t => p t
  | .fault _ => false
  | .refused _ => false

/-! ## Decoding: the word of every row, from R54's patterns and 95 part 2.1 -/

theorem test_decode_fixed : decodeWord 0x00E0 = .ok .cls ∧ decodeWord 0x00EE = .ok .ret := by decide

theorem test_decode_nnn :
    decodeWord 0x1ABC = .ok (.jp 0xABC) ∧ decodeWord 0x2ABC = .ok (.call 0xABC) ∧
    decodeWord 0xA300 = .ok (.ldI 0x300) ∧ decodeWord 0xBFFF = .ok (.jpV0 0xFFF) := by decide

theorem test_decode_xnn :
    decodeWord 0x3A7F = .ok (.seImm 0xA 0x7F) ∧ decodeWord 0x4A07 = .ok (.sneImm 0xA 0x07) ∧
    decodeWord 0x6FAB = .ok (.ldImm 0xF 0xAB) ∧ decodeWord 0x7AFF = .ok (.addImm 0xA 0xFF) ∧
    decodeWord 0xC10F = .ok (.rnd 1 0x0F) := by decide

theorem test_decode_xy :
    decodeWord 0x5120 = .ok (.seReg 1 2) ∧ decodeWord 0x9120 = .ok (.sneReg 1 2) ∧
    decodeWord 0x8EF0 = .ok (.ldReg 0xE 0xF) ∧ decodeWord 0x8121 = .ok (.orReg 1 2) ∧
    decodeWord 0x8122 = .ok (.andReg 1 2) ∧ decodeWord 0x8123 = .ok (.xorReg 1 2) ∧
    decodeWord 0x8014 = .ok (.addReg 0 1) ∧ decodeWord 0x8F15 = .ok (.subReg 0xF 1) ∧
    decodeWord 0x8126 = .ok (.shr 1 2) ∧ decodeWord 0x8017 = .ok (.subnReg 0 1) ∧
    decodeWord 0x812E = .ok (.shl 1 2) := by decide

theorem test_decode_xyn : decodeWord 0xD015 = .ok (.drw 0 1 5) ∧ decodeWord 0xDFF0 = .ok (.drw 0xF 0xF 0) := by decide

theorem test_decode_keys_and_misc :
    decodeWord 0xE19E = .ok (.skp 1) ∧ decodeWord 0xE1A1 = .ok (.sknp 1) ∧ decodeWord 0xF207 = .ok (.ldVxDT 2) ∧
    decodeWord 0xF10A = .ok (.ldVxK 1) ∧ decodeWord 0xF015 = .ok (.ldDTVx 0) ∧ decodeWord 0xF318 = .ok (.ldSTVx 3) ∧
    decodeWord 0xF11E = .ok (.addI 1) ∧ decodeWord 0xFA29 = .ok (.ldF 0xA) ∧ decodeWord 0xF033 = .ok (.ldB 0) ∧
    decodeWord 0xF255 = .ok (.storeRegs 2) ∧ decodeWord 0xFF65 = .ok (.loadRegs 0xF) := by decide

/-- R33: the byte at the lower address is the high byte; the table's bit numbering is the word's. -/
theorem test_byte_order :
    decodeBytes [0x12, 0x34, 0x56] = .ok (.jp 0x234, [0x56]) ∧ decodeBytes [0x12] = .error .tooFewBytes ∧
    decodeTableWord 16 0x812E = some (.shl 1 2) ∧ decodeTableWord 16 0x8128 = none := by decide

/-! ## Well-formedness: an ill-formed word of every class of R56 (95 part 2.1) -/

theorem test_ill_formed_zero_group :
    wellFormedWord 0x0123 = false ∧ wellFormedWord 0x0000 = false ∧ wellFormedWord 0x00E1 = false := by decide
theorem test_ill_formed_se : wellFormedWord 0x5121 = false := by decide
theorem test_ill_formed_alu :
    wellFormedWord 0x8128 = false ∧ wellFormedWord 0x812D = false ∧ wellFormedWord 0x812F = false := by decide
theorem test_ill_formed_sne : wellFormedWord 0x9121 = false := by decide
theorem test_ill_formed_key : wellFormedWord 0xE19F = false ∧ wellFormedWord 0xE1A0 = false := by decide
theorem test_ill_formed_misc :
    wellFormedWord 0xF000 = false ∧ wellFormedWord 0xF175 = false ∧ wellFormedWord 0xF185 = false := by decide

/-- R54: 34 rows, pairwise disjoint. -/
theorem test_rows_disjoint : opcodeTable.length = 34 ∧ opcodeTable.Pairwise (fun r q => r.disjoint q = true) := by
  decide

/-! ## Control transfer (95 part 2.2) -/

theorem test_illegal_word : afterStep (start 0x0000) (fun t => t.mode = .halted .unknownOpcode ∧ t.pc = 0x202) := by
  decide
theorem test_jp : afterStep (start 0x1FFF) (fun t => t.pc = 0xFFF) := by decide
theorem test_jp_odd : afterEvents [.step, .step] (start 0x1201) (fun t =>
    t.mode = .halted .unknownOpcode ∧ t.pc = 0x203) := by decide
theorem test_jp_then_fetch_fault : afterEvents [.step, .step] (start 0xBFFF |>.setV 0 0xFF) (fun t =>
    t.mode = .halted .addressOutOfRange ∧ t.pc = 0x10FE) := by decide
theorem test_jp_v0 : afterStep (start 0xB300 |>.setV 0 4) (fun t => t.pc = 0x304) := by decide
theorem test_call_last_slot : afterStep { start 0x2ABC with sp := 15 } (fun t =>
    t.stack[15] = 0x202 ∧ t.sp = 16 ∧ t.pc = 0xABC) := by decide
theorem test_call_overflow : afterStep { start 0x2ABC with sp := 16 } (fun t =>
    t.mode = .halted .stackOverflow ∧ t.pc = 0x202 ∧ t.sp = 16 ∧ t.stack[15] = 0) := by decide
theorem test_ret : afterStep { start 0x00EE with sp := 1, stack := State.reset.stack.set 0 0x206 } (fun t =>
    t.sp = 0 ∧ t.pc = 0x206) := by decide
theorem test_ret_underflow : afterStep (start 0x00EE) (fun t =>
    t.mode = .halted .stackUnderflow ∧ t.pc = 0x202 ∧ t.sp = 0) := by decide
theorem test_se_imm : afterStep (start 0x3100) (fun t => t.pc = 0x204) ∧
    afterStep (start 0x3100 |>.setV 1 4) (fun t => t.pc = 0x202) := by decide
theorem test_sne_imm : afterStep (start 0x4A07 |>.setV 10 7) (fun t => t.pc = 0x202) ∧
    afterStep (start 0x4A07 |>.setV 10 8) (fun t => t.pc = 0x204) := by decide
theorem test_se_reg : afterStep (start 0x5110 |>.setV 1 3) (fun t => t.pc = 0x204) ∧
    afterStep (start 0x5120 |>.setV 1 3) (fun t => t.pc = 0x202) := by decide
theorem test_sne_reg : afterStep (start 0x9110 |>.setV 1 3) (fun t => t.pc = 0x202) ∧
    afterStep ((start 0x9120).setV 1 9 |>.setV 2 8) (fun t => t.pc = 0x204) := by decide
theorem test_end_of_memory : afterEvents [.step, .step] ((State.reset.jumpTo 0xFFE).placeWord 0x6001) (fun t =>
    t.getV 0 = 1 ∧ t.pc = 0x1000 ∧ t.mode = .halted .addressOutOfRange) := by decide
theorem test_skip_past_end : afterEvents [.step, .step] ((State.reset.jumpTo 0xFFE).placeWord 0x3000) (fun t =>
    t.pc = 0x1002 ∧ t.mode = .halted .addressOutOfRange) := by decide

/-! ## Arithmetic and logic (95 part 2.3) -/

theorem test_ld_imm : afterStep (start 0x6FAB) (fun t => t.getV 15 = 0xAB ∧ t.pc = 0x202) := by decide
theorem test_add_imm : afterStep (withV (start 0x7F01) 0 0 0xFF) (fun t => t.getV 15 = 0) ∧
    afterStep (withV (start 0x7AFF) 0 0 5) (fun t => t.getV 10 = 0xFF ∧ t.getV 15 = 5) := by decide
theorem test_ld_reg : afterStep (withV (start 0x8EF0) 0 0 1) (fun t => t.getV 14 = 1) := by decide
theorem test_or : afterStep (withV (start 0x8011) 0x0F 0xF0 9) (fun t => t.getV 0 = 0xFF ∧ t.getV 15 = 9) := by decide
theorem test_and : afterStep (withV (start 0x8012) 0x3C 0x0F 9) (fun t => t.getV 0 = 0x0C ∧ t.getV 15 = 9) := by decide
theorem test_xor : afterStep (withV (start 0x8013) 0xFF 0x0F 9) (fun t => t.getV 0 = 0xF0 ∧ t.getV 15 = 9) := by decide
theorem test_add_reg : afterStep (withV (start 0x8014) 0xFF 0x01 7) (fun t => t.getV 0 = 0 ∧ t.getV 15 = 1) ∧
    afterStep (withV (start 0x80F4) 5 0 3) (fun t => t.getV 0 = 8 ∧ t.getV 15 = 0) := by decide
theorem test_add_vf : afterStep (withV (start 0x8F14) 0 2 0xFF) (fun t => t.getV 15 = 1) ∧
    afterStep (withV (start 0x8F14) 0 2 1) (fun t => t.getV 15 = 0) := by decide
theorem test_sub : afterStep (withV (start 0x8015) 5 5 0) (fun t => t.getV 0 = 0 ∧ t.getV 15 = 1) ∧
    afterStep (withV (start 0x8015) 0x10 0x20 9) (fun t => t.getV 0 = 0xF0 ∧ t.getV 15 = 0) := by decide
theorem test_sub_vf : afterStep (withV (start 0x8F15) 0 3 9) (fun t => t.getV 15 = 1) := by decide
theorem test_subn : afterStep (withV (start 0x8017) 0x10 0x20 0) (fun t => t.getV 0 = 0x10 ∧ t.getV 15 = 1) ∧
    afterStep (withV (start 0x8017) 1 0 9) (fun t => t.getV 0 = 0xFF ∧ t.getV 15 = 0) := by decide
theorem test_shr : afterStep (withV (start 0x8016) 0x05 0xFF 0) (fun t =>
    t.getV 0 = 0x02 ∧ t.getV 1 = 0xFF ∧ t.getV 15 = 1) := by decide
theorem test_shr_vy : afterStep (withV (otherQuirks (start 0x8016)) 0x01 0x80 9) (fun t =>
    t.getV 0 = 0x40 ∧ t.getV 1 = 0x80 ∧ t.getV 15 = 0) := by decide
theorem test_shl : afterStep (withV (start 0x801E) 0x81 0x01 0) (fun t => t.getV 0 = 0x02 ∧ t.getV 15 = 1) := by decide
theorem test_shl_vy : afterStep (withV (otherQuirks (start 0x801E)) 0x80 0x40 9) (fun t =>
    t.getV 0 = 0x80 ∧ t.getV 1 = 0x40 ∧ t.getV 15 = 0) := by decide

/-! ## Index and memory (95 part 2.4) -/

theorem test_ld_i : afterStep (start 0xA300) (fun t => t.i = 0x300) := by decide
theorem test_add_i : afterStep (withV ((start 0xF11E).setI 0xFF0) 0 0xFF 3) (fun t => t.i = 0x10EF ∧ t.getV 15 = 3) ∧
    afterStep (withV ((start 0xF11E).setI 0xFFFF) 0 1 0) (fun t => t.i = 0) := by decide
theorem test_ld_f : afterStep (start 0xFA29 |>.setV 10 0x1A) (fun t => t.i = 0x032) := by decide
theorem test_ld_b : afterStep (withV ((start 0xF033).setI 0xFFD) 234 0 0) (fun t =>
    t.byteAt 0xFFD = 2 ∧ t.byteAt 0xFFE = 3 ∧ t.byteAt 0xFFF = 4) := by decide
theorem test_ld_b_fault : afterStep (withV ((start 0xF033).setI 0xFFE) 7 0 0) (fun t =>
    t.mode = .halted .addressOutOfRange ∧ t.byteAt 0xFFE = 0 ∧ t.byteAt 0xFFF = 0) := by decide
theorem test_store : afterStep (withV ((start 0xFF55).setI 0xFF0) 1 0 0xEE) (fun t =>
    t.byteAt 0xFF0 = 1 ∧ t.byteAt 0xFF1 = 0 ∧ t.byteAt 0xFFF = 0xEE ∧ t.i = 0xFF0) := by decide
theorem test_store_increment : afterStep (withV (otherQuirks ((start 0xF155).setI 0x400)) 1 2 0) (fun t =>
    t.byteAt 0x400 = 1 ∧ t.byteAt 0x401 = 2 ∧ t.byteAt 0x402 = 0 ∧ t.i = 0x402) := by decide
theorem test_store_fault : afterStep (withV ((start 0xF155).setI 0xFFF) 0x77 0 0) (fun t =>
    t.mode = .halted .addressOutOfRange ∧ t.byteAt 0xFFF = 0) := by decide
theorem test_load_increment : afterStep (otherQuirks ((start 0xF265).setI 0x04E)) (fun t =>
    t.getV 0 = 0x80 ∧ t.getV 1 = 0x80 ∧ t.getV 2 = 0 ∧ t.i = 0x051) := by decide
theorem test_load_fault : afterStep (withV ((start 0xF165).setI 0xFFF) 3 4 0) (fun t =>
    t.mode = .halted .addressOutOfRange ∧ t.getV 0 = 3 ∧ t.getV 1 = 4) := by decide
theorem test_store_into_program : afterEvents [.step, .step] (withV ((start 0xF055).setI 0x202) 0x12 0 0) (fun t =>
    t.byteAt 0x202 = 0x12 ∧ t.pc = 0x200) := by decide

/-! ## Random, timers, keys (95 part 2.5) -/

/-- The draw is free: the result is the drawn byte under the mask, whatever it is, and the generator moves on. -/
theorem test_rnd : step (start 0xC10F) =
    .next { (start 0xC10F).advance with
      v := State.reset.v.set 1 ((Config.rngNext 0).1 &&& 0x0F), rng := (Config.rngNext 0).2 } := rfl
theorem test_ld_vx_dt : afterStep { start 0xF207 with dt := 58 } (fun t => t.getV 2 = 58) := by decide
theorem test_ld_dt_vx : afterStep (start 0xF015 |>.setV 0 60) (fun t => t.dt = 60 ∧ t.st = 0) := by decide
theorem test_ld_st_vx : afterStep (start 0xF318 |>.setV 3 2) (fun t => t.st = 2 ∧ t.dt = 0 ∧ t.buzz) := by decide
theorem test_skp : afterStep (((start 0xE19E).setV 1 0x15).setKey 5 true) (fun t => t.pc = 0x204) ∧
    afterStep (start 0xE19E |>.setV 1 5) (fun t => t.pc = 0x202) := by decide
theorem test_sknp : afterStep (((start 0xE1A1).setV 1 0xF5).setKey 5 true) (fun t => t.pc = 0x202) ∧
    afterStep (start 0xE1A1 |>.setV 1 5) (fun t => t.pc = 0x204) := by decide
theorem test_ld_vx_k : afterStep (start 0xF10A |>.setV 1 9) (fun t =>
    t.mode = .waitingForKey 1 ∧ t.pc = 0x202 ∧ t.getV 1 = 9) := by decide

/-! ## Display (95 part 2.6) -/

/-- The pixels (6, 1) to (9, 1) that a sprite byte 0xF0 at V0 = 70, V1 = 33 lights, and their neighbours. -/
theorem test_drw_start_wraps : afterStep (withV (start 0xD011) 70 33 9) (fun t =>
    t.disp.pixel 1 5 = false ∧ t.disp.pixel 1 6 = true ∧ t.disp.pixel 1 9 = true ∧ t.disp.pixel 1 10 = false ∧
    t.disp.pixel 0 6 = false ∧ t.getV 15 = 0) := by decide
/-- Glyph 3 at (62, 30): two pixels, the rest clipped, none at the opposite edge; drawn again, both off and VF 1. -/
theorem test_drw_clips : afterStep (withV ((start 0xD015).setI 0x00F) 62 30 9) (fun t =>
    t.disp.pixel 30 62 = true ∧ t.disp.pixel 30 63 = true ∧ t.disp.pixel 31 62 = false ∧
    t.disp.pixel 30 0 = false ∧ t.disp.pixel 0 62 = false ∧ t.getV 15 = 0 ∧
    afterExec (.drw 0 1 5) t (fun u => u.disp.pixel 30 62 = false ∧ u.disp.pixel 30 63 = false ∧ u.getV 15 = 1)) := by
  decide
theorem test_drw_vf_coordinates : afterStep (withV (start 0xDFF1) 0 0 1) (fun t =>
    t.disp.pixel 1 0 = false ∧ t.disp.pixel 1 1 = true ∧ t.disp.pixel 1 4 = true ∧ t.getV 15 = 0) := by decide
theorem test_drw_no_rows : afterStep (withV ((start 0xD010).setI 0xFFFF) 0 0 9) (fun t =>
    t.mode = .running ∧ t.getV 15 = 0) := by decide
theorem test_drw_fault : afterStep (withV ((start 0xD015).setI 0xFFC) 0 31 9) (fun t =>
    t.mode = .halted .addressOutOfRange ∧ t.getV 15 = 9) ∧
    afterStep (withV ((start 0xD015).setI 0xFFB) 0 31 9) (fun t => t.mode = .running ∧ t.getV 15 = 0) := by decide
theorem test_drw_partial_overlap :
    afterExec (.drw 0 1 1) (((State.reset.setDisp (Display.clear.toggle 0 0)).storeBytes 0x300 [0xC0]).setI 0x300)
      (fun t => t.disp.pixel 0 0 = false ∧ t.disp.pixel 0 1 = true ∧ t.getV 15 = 1) := by decide
theorem test_cls : afterExec .cls (State.reset.setDisp ((Display.clear.toggle 0 0).toggle 31 63)) (fun t =>
    t.disp.pixel 0 0 = false ∧ t.disp.pixel 31 63 = false) := by decide
theorem test_render : ((State.reset.setDisp (Display.clear.toggle 0 1)).render ⟨0, 0, 0⟩ ⟨255, 255, 255⟩).take 8 =
    [0, 0, 0, 255, 255, 255, 255, 255] := by decide

/-! ## Events and LOAD (95 part 2.7 and part 1) -/

theorem test_tick : (tick { State.reset with dt := 1, st := 0 }).dt = 0 ∧
    (tick { State.reset with dt := 0, st := 255 }).dt = 0 ∧ (tick { State.reset with dt := 0, st := 255 }).st = 254 ∧
    (tick { State.reset with dt := 5, st := 1, mode := .waitingForKey 2 }).dt = 4 ∧
    (tick { State.reset with dt := 5, st := 5, mode := .halted .unknownOpcode }).st = 5 := by decide
theorem test_key_ends_wait :
    (key 0xF true { State.reset with mode := .waitingForKey 4 }).getV 4 = 0x0F ∧
    (key 0xF true { State.reset with mode := .waitingForKey 4 }).mode = .running ∧
    (key 2 false { State.reset with mode := .waitingForKey 4 }).mode = .waitingForKey 4 ∧
    (key 1 true { State.reset with mode := .halted .stackOverflow }).keys[1] = true := by decide
/-- A RUN of a jump to self, and a RUN of no cycles, which still ticks. -/
theorem test_run : afterEvents [.run 5] { start 0x1200 with dt := 2 } (fun t => t.pc = 0x200 ∧ t.dt = 1) ∧
    afterEvents [.run 0] { start 0x1200 with dt := 2 } (fun t => t.pc = 0x200 ∧ t.dt = 1) := by decide
/-- S6: LOAD of 00 E0, then RUN(1). -/
theorem test_load_and_run :
    (match load Params.default [0x00, 0xE0] with
      | .ok s => afterEvents [.run 1] s (fun t => t.pc = 0x202 ∧ t.halted = false)
      | .error _ => false) = true := by decide

/-! ## Witnesses: encoding -/

theorem witness_encode_of_decoded_word :
    (∃ i, decodeWord 0x00EE = .ok i) ∧ (∃ i, decodeWord 0xFF65 = .ok i) ∧ ∃ i, decodeWord 0x812E = .ok i :=
  ⟨⟨.ret, by decide⟩, ⟨.loadRegs 15, by decide⟩, ⟨.shl 1 2, by decide⟩⟩
theorem witness_decode_agrees_with_table :
    (Instr.row (.jp 0) ∈ opcodeTable ∧ (Instr.row (.jp 0)).selects 0x1FFF = true) ∧
    decodeWord 0x1FFF = .ok (.jp 0xFFF) ∧ decodeWord 0x0000 = .error .zeroGroup := by decide
/-- The ends of the illegal ranges, class by class, and the legal words beside them. -/
theorem witness_illegal_words_by_class :
    decodeWord 0x0FFF = .error .zeroGroup ∧ decodeWord 0x1000 = .ok (.jp 0) ∧
    decodeWord 0x5FFF = .error .seLowNibble ∧ decodeWord 0x5FF0 = .ok (.seReg 15 15) ∧
    decodeWord 0x8007 = .ok (.subnReg 0 0) ∧ decodeWord 0x8008 = .error .aluSubOp ∧
    decodeWord 0x800D = .error .aluSubOp ∧ decodeWord 0x800E = .ok (.shl 0 0) ∧
    decodeWord 0x800F = .error .aluSubOp ∧ decodeWord 0x9001 = .error .sneLowNibble ∧
    decodeWord 0xE0A2 = .error .keyGroup ∧ decodeWord 0xF064 = .error .miscGroup ∧
    decodeWord 0xF066 = .error .miscGroup := by decide

/-! ## Witnesses: the step cycle -/

theorem witness_fetch : 4096 ≤ (State.reset.jumpTo 0xFFF).pc.toNat + 1 ∧
    (State.reset.jumpTo 0xFFE).pc.toNat + 1 < 4096 := by decide
theorem witness_step_runs_decoded (s : State) (hs : s = (State.reset.jumpTo 0xFFE).placeWord 0x6A07) :
    s.mode = .running ∧ s.pc.toNat + 1 < 4096 ∧
    (0x6A07 : Word).toNat = (s.byteAt s.pc.toNat).toNat * 256 + (s.byteAt (s.pc.toNat + 1)).toNat ∧
    decodeWord 0x6A07 = .ok (.ldImm 10 7) := by subst hs; decide
theorem witness_step_faults :
    ((State.reset.jumpTo 0xFFF).mode = .running ∧ 4096 ≤ (State.reset.jumpTo 0xFFF).pc.toNat + 1) ∧
    ((State.reset.jumpTo 0xFFE).mode = .running ∧ (State.reset.jumpTo 0xFFE).pc.toNat + 1 < 4096 ∧
      wellFormedWord (State.reset.jumpTo 0xFFE).wordAtPc = false) := by decide
theorem witness_step_idle : (State.reset.setMode (.waitingForKey 15)).mode ≠ .running ∧
    (State.reset.setMode (.halted .unknownOpcode)).mode ≠ .running := by decide
theorem witness_step_leaves_timers :
    afterStep (start 0xF015 |>.setV 0 60) (fun t => t.dt ≠ 0) ∧
    afterStep (start 0xF018 |>.setV 0 60) (fun t => t.st ≠ 0) := by decide
/-- The premise holds at `pc = 0x200`, and where `pc` cannot be fetched from and the word is placed at 0x200. -/
theorem witness_placed_word : State.reset.mem.wf = true ∧ (State.reset.jumpTo 0xFFF).mem.wf = true ∧
    (State.reset.jumpTo 0xFFF).fetchSlot = 0x200 ∧ (State.reset.jumpTo 0xFFE).fetchSlot = 0xFFE := by decide

/-! ## Witnesses: control transfer -/

theorem witness_return : (∃ s : State, s.sp.val = (0 : Fin 16).val + 1) ∧
    (∃ s : State, s.sp.val = (15 : Fin 16).val + 1) ∧
    ∃ s : State, s.sp = 0 :=
  ⟨⟨{ State.reset with sp := 1 }, rfl⟩, ⟨{ State.reset with sp := 16 }, rfl⟩, ⟨State.reset, rfl⟩⟩
theorem witness_call : (∃ s : State, s.sp.val = (0 : Fin 16).val) ∧ (∃ s : State, s.sp.val = (15 : Fin 16).val) ∧
    ∃ s : State, s.sp = 16 :=
  ⟨⟨State.reset, rfl⟩, ⟨{ State.reset with sp := 15 }, rfl⟩, ⟨{ State.reset with sp := 16 }, rfl⟩⟩
theorem witness_return_resumes : ∃ s : State, s.sp.val < 16 ∧ s.sp = 15 := ⟨{ State.reset with sp := 15 }, by decide⟩
theorem witness_calls_nest :
    State.reset.sp.val + (List.replicate 16 (0x200 : Addr12)).length = 16 ∧
    ({ State.reset with sp := 16 } : State).sp.val + ([] : List Addr12).length = 16 ∧
    ({ State.reset with sp := 3 } : State).sp.val + [(0x300 : Addr12)].length ≤ 16 := by decide
theorem witness_key_skips : (((start 0xE19E).setV 1 0xF5).getV 1).toNat % 16 = (5 : Key).val ∧
    (((start 0xE19E).setV 1 0x0F).getV 1).toNat % 16 = (15 : Key).val := by decide

/-! ## Witnesses: arithmetic -/

theorem witness_shift_source (s : State) (hs : s = withV State.reset 0x05 0xFF 0) :
    ((s.quirks.shiftSrc = .vx → (0x05 : Byte) = s.getV 0) ∧ (s.quirks.shiftSrc = .vy → (0x05 : Byte) = s.getV 1)) ∧
    ((otherQuirks s).quirks.shiftSrc = .vx → (0xFF : Byte) = (otherQuirks s).getV 0) ∧
    ((otherQuirks s).quirks.shiftSrc = .vy → (0xFF : Byte) = (otherQuirks s).getV 1) := by subst hs; decide
/-- A destination and VF written, a register outside both kept, and the fault in place of the flag. -/
theorem witness_registers_change :
    (∃ t, exec (.addReg 0 1) State.reset = .next t ∧ (2 : Reg) ∉ destRegs (.addReg 0 1) ∧
      writesFlag (.addReg 0 1) = true ∧ (2 : Reg) ≠ 15) ∧
    (∃ t, exec (.drw 0 1 15) (State.reset.setI 0xFFF) = .next t ∧ t.mode = .halted .addressOutOfRange) ∧
    (∃ t, exec (.loadRegs 3) State.reset = .next t ∧ (4 : Reg) ∉ destRegs (.loadRegs 3)) :=
  ⟨⟨_, rfl, by decide, by decide, by decide⟩, ⟨_, rfl, by decide⟩, ⟨_, rfl, by decide⟩⟩

/-! ## Witnesses: index and memory -/

theorem witness_store_decimal (s : State) (hs : s = start 0xF033) :
    s.mem.wf = true ∧ (s.setI 0xFFD).i.toNat + 2 < 4096 ∧ 4096 ≤ (s.setI 0xFFE).i.toNat + 2 := by subst hs; decide
/-- The last address that fits and the first that does not, for one and for sixteen registers, under both settings. -/
theorem witness_block_transfer (s : State) (hs : s = start 0xFF55) :
    s.mem.wf = true ∧ (s.setI 0xFF0).i.toNat + (15 : Reg).val < 4096 ∧ 4096 ≤ (s.setI 0xFF1).i.toNat + (15 : Reg).val ∧
    (s.setI 0xFFF).i.toNat + (0 : Reg).val < 4096 ∧ 4096 ≤ (s.setI 0x1000).i.toNat + (0 : Reg).val ∧
    s.quirks.memopIIncrement = false ∧ (otherQuirks s).quirks.memopIIncrement = true := by subst hs; decide
theorem witness_stored_block_loads_back : ∃ t, exec (.storeRegs 15) (State.reset.setI 0xFF0) = .next t ∧
    State.reset.mem.wf = true ∧ (State.reset.setI 0xFF0).i.toNat + (15 : Reg).val < 4096 :=
  ⟨_, rfl, by decide, by decide⟩
theorem witness_store_is_seen (s : State) (hs : s = (State.reset.jumpTo 0xFFE).setI 0xFFE) :
    s.mem.wf = true ∧ s.i = s.pc ∧ s.pc.toNat + 1 < 4096 := by subst hs; decide

/-! ## Witnesses: random, display -/

theorem witness_random_mask : (0x0F : Byte).getLsbD 4 = false ∧ (0x0F : Byte).getLsbD 3 = true := by decide
/-- No rows at any `I`, the last sprite that fits, the first that does not, and the last pixel. -/
theorem witness_draw : ((0 : Rows).val = 0 ∧ (State.reset.setI 0xFFFF).i = 0xFFFF) ∧
    (State.reset.setI 0xFFB).i.toNat + (5 : Rows).val - 1 < 4096 ∧
    ((5 : Rows).val ≠ 0 ∧ 4096 ≤ (State.reset.setI 0xFFC).i.toNat + (5 : Rows).val - 1) ∧
    State.spriteCovers (withV State.reset 63 31 0) 0 1 1 31 63 = true := by decide
/-- Glyph 0 at (0, 0) on a clear display, twice: the second flag is 1 and a sprite bit lies inside. -/
theorem witness_drawing_twice : ∃ t u, (0 : Reg) ≠ 15 ∧ (1 : Reg) ≠ 15 ∧ State.reset.i.toNat + (5 : Rows).val ≤ 4096 ∧
    exec (.drw 0 1 5) State.reset = .next t ∧ exec (.drw 0 1 5) t = .next u ∧ State.reset.disp = Display.clear ∧
    u.getV 15 = 1 ∧ State.spriteCovers State.reset 0 1 5 0 0 = true :=
  ⟨_, _, by decide, by decide, by decide, rfl, rfl, rfl, by decide, by decide⟩
theorem witness_render_pixel : (31 < 32 ∧ 63 < 64) ∧ (31 * 64 + 63) * 4 + 3 = 8191 := by decide
theorem witness_render_determines : ∃ off on : Colour, off ≠ on ∧
    State.reset.render off on = (State.reset.jumpTo 0).render off on := ⟨⟨0, 0, 0⟩, ⟨255, 0, 0⟩, by decide, rfl⟩

/-! ## Witnesses: events -/

theorem witness_halted : (State.reset.setMode (.halted .stackUnderflow)).IsHalted ∧
    ∀ e ∈ [Event.step, .tick, .run 5], ∀ c p, e ≠ .key c p := ⟨⟨_, rfl⟩, by simp⟩
/-- Both run states in which a TICK counts are not halted. -/
theorem witness_not_halted : ¬State.reset.IsHalted ∧ ¬(State.reset.setMode (.waitingForKey 0)).IsHalted :=
  ⟨(fun ⟨_, h⟩ => nomatch h), (fun ⟨_, h⟩ => nomatch h)⟩
theorem witness_key_event : (State.reset.setMode (.waitingForKey 15)).mode = .waitingForKey 15 ∧
    ¬State.reset.Waiting ∧ ¬(State.reset.setMode (.halted .unknownOpcode)).Waiting :=
  ⟨rfl, (fun ⟨_, h⟩ => nomatch h), (fun ⟨_, h⟩ => nomatch h)⟩
theorem witness_key_wait : (State.reset.setMode (.waitingForKey 1)).Waiting ∧
    ∀ e ∈ [Event.step, .tick, .run 10, .key 7 false], e.noPress = true := ⟨⟨_, rfl⟩, by decide⟩
theorem witness_run : ¬(start 0xF10A).IsHalted ∧ afterEvents [.step] (start 0xF10A) (fun t => t.mode ≠ .running) :=
  ⟨(fun ⟨_, h⟩ => nomatch h), by decide⟩
/-- A wait entered and one kept, a fault entered with `pc` kept and with `pc` two further, and a halt kept. -/
theorem witness_step_changes_mode :
    afterStep (start 0xFF0A) (fun t => t.mode = .waitingForKey 15) ∧
    afterStep (State.reset.setMode (.waitingForKey 3)) (fun t => t.mode = .waitingForKey 3) ∧
    afterStep (State.reset.jumpTo 0xFFF) (fun t => t.mode = .halted .addressOutOfRange ∧ t.pc = 0xFFF) ∧
    afterStep (start 0x00EE) (fun t => t.mode = .halted .stackUnderflow ∧ t.pc = 0x202) ∧
    afterStep (State.reset.setMode (.halted .stackOverflow)) (fun t => t.mode = .halted .stackOverflow) := by decide
/-- One instruction for each clause that really changes the piece of state the clause is about. -/
theorem witness_state_changes :
    afterExec (.ldI 1) State.reset (fun t => t.i ≠ 0) ∧ afterExec (.addI 1) (State.reset.setV 1 1) (fun t => t.i ≠ 0) ∧
    afterExec (.ldF 1) (State.reset.setV 1 1) (fun t => t.i ≠ 0) ∧
    afterExec (.storeRegs 0) (otherQuirks State.reset) (fun t => t.i ≠ 0) ∧
    afterExec (.loadRegs 0) (otherQuirks State.reset) (fun t => t.i ≠ 0) ∧
    afterExec (.jpV0 1) State.reset (fun t => t.pc ≠ 0x200) ∧ afterExec (.sknp 0) State.reset (fun t => t.pc ≠ 0x200) ∧
    afterExec (.ldVxK 15) State.reset (fun t => t.mode ≠ .running) ∧
    afterExec .ret State.reset (fun t => t.mode ≠ .running) ∧
    afterExec (.call 0) State.reset (fun t => t.stack ≠ State.reset.stack ∧ t.sp ≠ 0) ∧
    afterExec .ret { State.reset with sp := 1 } (fun t => t.sp ≠ 1) ∧
    afterExec (.ldDTVx 1) (State.reset.setV 1 1) (fun t => t.dt ≠ 0) ∧
    afterExec (.ldSTVx 1) (State.reset.setV 1 1) (fun t => t.st ≠ 0) ∧
    afterExec (.drw 0 1 1) State.reset (fun t => t.disp.pixel 0 0 ≠ Display.clear.pixel 0 0) ∧
    afterExec (.ldB 1) (State.reset.setV 1 7) (fun t => t.byteAt 0 ≠ State.reset.byteAt 0) ∧
    afterExec (.storeRegs 0) State.reset (fun t => t.byteAt 0 ≠ State.reset.byteAt 0) := by decide

/-! ## Witnesses: LOAD and the invariant -/

theorem witness_load_fits : (List.replicate 3584 (0x60 : Byte)).length ≤ 3584 ∧ ([] : List Byte).length ≤ 3584 :=
  ⟨List.length_replicate.le, Nat.zero_le _⟩
theorem witness_load_oversize : 3584 < (List.replicate 3585 (0 : Byte)).length := by
  rw [List.length_replicate]; decide
theorem witness_load_builds : ∃ s, load Params.default [0x12, 0x00] = .ok s := ⟨_, rfl⟩
/-- The invariant at its ends: `pc = 0x10FE`, a full stack of return addresses 2 and 0x1000, then a STEP from it. -/
theorem witness_invariant (s : State) (hs : s = { State.reset.jumpTo 0x10FE with
    sp := 16, stack := (Vector.replicate 16 2).set 0 0x1000 }) : s.Inv ∧ ∃ t, step s = .next t := by
  subst hs; exact ⟨by decide, _, rfl⟩
theorem witness_spinning : (start 0x1200).Spinning ∧ ((State.reset.jumpTo 0xFFE).placeWord 0x1FFE).Spinning := by decide

end Sys2Proof.Tests
end

section
/-! SUPPORT. A conditional skip, said once for every instruction whose meaning is one (R8, R61), and the four compares
that are (R67 to R70). -/

namespace Sys2Proof.Machine

/-- A conditional skip changes nothing but `pc`. -/
theorem State.onlyPc_skipIf (c : Bool) (s : State) : OnlyPc s (s.skipIf c) :=
  ⟨by cases c <;> rfl, State.byteAt_congr (State.skipIf_mem s c)⟩

theorem exec_seImm (x : Reg) (nn : Byte) (s : State) :
    exec (.seImm x nn) s = .next (s.skipIf (s.getV x == nn)) := rfl

theorem exec_sneImm (x : Reg) (nn : Byte) (s : State) :
    exec (.sneImm x nn) s = .next (s.skipIf (s.getV x != nn)) := rfl

theorem exec_seReg (x y : Reg) (s : State) :
    exec (.seReg x y) s = .next (s.skipIf (s.getV x == s.getV y)) := rfl

theorem exec_sneReg (x y : Reg) (s : State) :
    exec (.sneReg x y) s = .next (s.skipIf (s.getV x != s.getV y)) := rfl

/-- An instruction that skips when `a` and `b` are equal. -/
theorem skips_of_exec_beq {i : Instr} {s : State} {a b : Byte} (h : exec i s = .next (s.skipIf (a == b))) :
    ∃ t, exec i s = .next t ∧ t.pc = (if a = b then s.pc + 2 else s.pc) ∧ OnlyPc s t :=
  ⟨_, h, by simp, State.onlyPc_skipIf _ s⟩

/-- An instruction that skips when `a` and `b` differ. -/
theorem skips_of_exec_bne {i : Instr} {s : State} {a b : Byte} (h : exec i s = .next (s.skipIf (a != b))) :
    ∃ t, exec i s = .next t ∧ t.pc = (if a = b then s.pc else s.pc + 2) ∧ OnlyPc s t :=
  ⟨_, h, by simp, State.onlyPc_skipIf _ s⟩

/-- Settles O19: each compare is a conditional skip on `==` or `!=` of its two operands, and a conditional skip moves
`pc` alone. -/
theorem comparesSkipOneInstruction : Obligations.ComparesSkipOneInstruction := fun x y nn s =>
  ⟨skips_of_exec_beq (exec_seImm x nn s), skips_of_exec_bne (exec_sneImm x nn s),
    skips_of_exec_beq (exec_seReg x y s), skips_of_exec_bne (exec_sneReg x y s)⟩

end Sys2Proof.Machine
end

section
/-! SUPPORT. The write of one register, said once for every instruction whose meaning is one (R10, R61), and the loads,
the immediate add and the bitwise operations that are (R76 to R81). -/

namespace Sys2Proof.Machine

/-- A register write leaves every other register alone, VF included. -/
theorem State.sameRegsBut_setV (s : State) (x : Reg) (b : Byte) : SameRegsBut [x] s (s.setV x b) := fun _ hr =>
  State.getV_setV_other s (Ne.symm (List.ne_of_not_mem_cons hr)) b

/-- A register write changes nothing outside the register file. -/
theorem State.onlyRegs_setV (s : State) (x : Reg) (b : Byte) : OnlyRegs s (s.setV x b) :=
  ⟨rfl, State.byteAt_setV s x b⟩

theorem exec_ldImm (x : Reg) (nn : Byte) (s : State) : exec (.ldImm x nn) s = .next (s.setV x nn) := rfl

theorem exec_addImm (x : Reg) (nn : Byte) (s : State) :
    exec (.addImm x nn) s = .next (s.setV x (s.getV x + nn)) := rfl

theorem exec_ldReg (x y : Reg) (s : State) : exec (.ldReg x y) s = .next (s.setV x (s.getV y)) := rfl

theorem exec_orReg (x y : Reg) (s : State) :
    exec (.orReg x y) s = .next (s.setV x (s.getV x ||| s.getV y)) := rfl

theorem exec_andReg (x y : Reg) (s : State) :
    exec (.andReg x y) s = .next (s.setV x (s.getV x &&& s.getV y)) := rfl

theorem exec_xorReg (x y : Reg) (s : State) :
    exec (.xorReg x y) s = .next (s.setV x (s.getV x ^^^ s.getV y)) := rfl

/-- An instruction whose meaning is the write of `b` to `V[x]`: what holds of `b` holds of `V[x]` afterwards, and
nothing else changes. -/
theorem writesRegister_of_exec {i : Instr} {s : State} {x : Reg} {b : Byte} {P : Byte → Prop}
    (h : exec i s = .next (s.setV x b)) (hb : P b) :
    ∃ t, exec i s = .next t ∧ P (t.getV x) ∧ SameRegsBut [x] s t ∧ OnlyRegs s t :=
  ⟨_, h, (State.getV_setV_same s x b).symm ▸ hb, State.sameRegsBut_setV s x b, State.onlyRegs_setV s x b⟩

/-- Settles O21: each load is the write of its source to `V[x]`. -/
theorem loadsWriteDestination : Obligations.LoadsWriteDestination := fun x y nn s =>
  ⟨writesRegister_of_exec (P := (· = nn)) (exec_ldImm x nn s) rfl,
    writesRegister_of_exec (P := (· = s.getV y)) (exec_ldReg x y s) rfl⟩

/-- Settles O22: the immediate add is the write of an 8-bit sum to `V[x]`, and that sum is modulo 256. -/
theorem addImmediateWrapsWithoutFlag : Obligations.AddImmediateWrapsWithoutFlag := fun x nn s =>
  writesRegister_of_exec (P := fun b => b.toNat = ((s.getV x).toNat + nn.toNat) % 256) (exec_addImm x nn s)
    (BitVec.toNat_add (s.getV x) nn)

/-- Settles O23: each of the three is the write to `V[x]` of a bitwise operation on the old `V[x]` and `V[y]`. -/
theorem logicIsBitwiseWithoutFlag : Obligations.LogicIsBitwiseWithoutFlag := fun x y s =>
  ⟨writesRegister_of_exec (P := fun b => ∀ k, b.getLsbD k = ((s.getV x).getLsbD k || (s.getV y).getLsbD k))
      (exec_orReg x y s) fun _ => BitVec.getLsbD_or,
    writesRegister_of_exec (P := fun b => ∀ k, b.getLsbD k = ((s.getV x).getLsbD k && (s.getV y).getLsbD k))
      (exec_andReg x y s) fun _ => BitVec.getLsbD_and,
    writesRegister_of_exec (P := fun b => ∀ k, b.getLsbD k = ((s.getV x).getLsbD k ^^ (s.getV y).getLsbD k))
      (exec_xorReg x y s) fun _ => BitVec.getLsbD_xor⟩

end Sys2Proof.Machine
end

section
/-! SUPPORT. The key a register names and the two skips on it (R104, R105). -/

namespace Sys2Proof.Machine

/-- The key `V[x]` names is the one whose code is the low nibble, whatever the high nibble (R104). -/
theorem State.keyPressed_eq {s : State} {x : Reg} {k : Key} (h : (s.getV x).toNat % 16 = k.val) :
    s.keyPressed x = s.keys[k] := by
  obtain rfl : lowNibble (s.getV x) = k := Fin.ext ((lowNibble_val _).trans h)
  rfl

theorem exec_skp (x : Reg) (s : State) : exec (.skp x) s = .next (s.skipIf (s.keyPressed x)) := rfl

theorem exec_sknp (x : Reg) (s : State) : exec (.sknp x) s = .next (s.skipIf (!s.keyPressed x)) := rfl

/-- Settles O20: both are conditional skips, on the key that the low nibble names and on its negation. -/
theorem keySkipsTestLowNibble : Obligations.KeySkipsTestLowNibble := by
  intro x k s h
  have hk : s.keyPressed x = s.keys[k] := State.keyPressed_eq h
  refine ⟨⟨_, exec_skp x s, ?_, State.onlyPc_skipIf _ s⟩, ⟨_, exec_sknp x s, ?_, State.onlyPc_skipIf _ s⟩⟩
  · rw [State.skipIf_pc, hk]
  · rw [State.skipIf_pc, hk]
    cases s.keys[k] <;> rfl

end Sys2Proof.Machine
end

section
/-! SUPPORT. The random draw (R100) and the loads from and to the timers (R101 to R103). -/

namespace Sys2Proof.Machine

theorem exec_rnd (x : Reg) (nn : Byte) (s : State) :
    exec (.rnd x nn) s = .next (s.draw.2.setV x ((Config.rngNext s.rng).1 &&& nn)) := rfl

/-- A bit that is 0 in the mask is 0 in the masked byte, whatever the byte (R100). -/
theorem getLsbD_and_of_mask_false (r : Byte) {nn : Byte} {k : Nat} (h : nn.getLsbD k = false) :
    (r &&& nn).getLsbD k = false := by
  rw [BitVec.getLsbD_and, h, Bool.and_false]

/-- Settles O34: `RND` is a draw, which leaves registers and memory alone, followed by the write of the masked byte to
`V[x]`; the mask's zeros are zeros of any masked byte. -/
theorem randomIsMaskedDraw : Obligations.RandomIsMaskedDraw := by
  intro x nn s
  have hx := State.getV_setV_same s.draw.2 x ((Config.rngNext s.rng).1 &&& nn)
  refine ⟨_, exec_rnd x nn s, hx, rfl, fun k hk => ?_, ?_, rfl, State.byteAt_setV s.draw.2 x _⟩
  · rw [hx]
    exact getLsbD_and_of_mask_false _ hk
  · exact State.sameRegsBut_setV s.draw.2 x _

theorem exec_ldVxDT (x : Reg) (s : State) : exec (.ldVxDT x) s = .next (s.setV x s.dt) := rfl

theorem exec_ldDTVx (x : Reg) (s : State) : exec (.ldDTVx x) s = .next (s.setDT (s.getV x)) := rfl

theorem exec_ldSTVx (x : Reg) (s : State) : exec (.ldSTVx x) s = .next (s.setST (s.getV x)) := rfl

/-- BUZZ is on exactly while the sound timer is not 0 (R128). -/
theorem State.buzz_eq (s : State) : s.buzz = decide (s.st.toNat ≠ 0) :=
  decide_eq_decide.2 Nat.pos_iff_ne_zero

/-- Settles O35: the first is a register write, the other two each write one timer, and BUZZ is read from the new ST. -/
theorem timerLoadsMoveBytes : Obligations.TimerLoadsMoveBytes := fun x s =>
  ⟨writesRegister_of_exec (P := (· = s.dt)) (exec_ldVxDT x s) rfl,
    ⟨_, exec_ldDTVx x s, rfl, rfl, State.byteAt_setDT s _⟩,
    ⟨_, exec_ldSTVx x s, rfl, State.buzz_eq _, rfl, State.byteAt_setST s _⟩⟩

end Sys2Proof.Machine
end

section
/-! SUPPORT. The key wait (R106): what STEP, TICK and KEY do to a waiting machine (R60, R127, R129, R130). -/

namespace Sys2Proof.Machine

theorem exec_ldVxK (x : Reg) (s : State) : exec (.ldVxK x) s = .next (s.setMode (.waitingForKey x)) := rfl

/-- STEP does nothing unless the machine is running (R60). -/
theorem step_of_not_running {s : State} (h : s.mode ≠ .running) : step s = .next s := by
  cases hm : s.mode with
  | running => exact absurd hm h
  | waitingForKey r => simp only [step, hm]
  | halted r => simp only [step, hm]

/-- TICK keeps the run state (R127). -/
@[simp] theorem tick_mode (s : State) : (tick s).mode = s.mode := by
  unfold tick
  split <;> rfl

/-- The output `halted` is off in a key wait (R26). -/
theorem State.halted_of_waiting {s : State} {r : Reg} (h : s.mode = .waitingForKey r) : s.halted = false := by
  simp only [State.halted, h]

/-- A release changes the key state alone (R129). -/
@[simp] theorem key_release (c : Key) (s : State) : key c false s = s.setKey c false := rfl

/-- A press in a key wait sets the key, writes its code to the waiting register and resumes (R129, R130). -/
theorem key_press_of_waiting {s : State} {r : Reg} (h : s.mode = .waitingForKey r) (c : Key) :
    key c true s = ((s.setKey c true).setV r (keyByte c)).setMode .running := by
  have hm : (s.setKey c true).mode = .waitingForKey r := h
  simp only [key, if_true, State.endWait, hm]

/-- A key code is zero-extended to a byte (R130). -/
@[simp] theorem keyByte_toNat (c : Key) : (keyByte c).toNat = c.val := by
  rw [keyByte, BitVec.toNat_ofNat]
  omega

/-- Settles O36: the instruction sets the run state alone; STEP and TICK keep a wait, a press ends it by writing
the code to the waiting register, and a release only sets the key. -/
theorem waitForKeyEndsWithPress : Obligations.WaitForKeyEndsWithPress := by
  intro x s
  have hw : (s.setMode (.waitingForKey x)).mode = .waitingForKey x := rfl
  refine ⟨_, exec_ldVxK x s, rfl, State.byteAt_setMode s _, step_of_not_running (by simp), tick_mode _,
    State.halted_of_waiting hw, fun c => ?press, fun c => ?release⟩
  case press =>
    rw [key_press_of_waiting hw c]
    refine ⟨rfl, ?_, ?_, rfl⟩
    · rw [State.getV_setMode, State.getV_setV_same, keyByte_toNat]
    · exact State.sameRegsBut_setV s x (keyByte c)
  case release => rw [key_release, State.setKey_mode, hw]

end Sys2Proof.Machine
end

section
/-! SUPPORT. Clearing the display (R111). -/

namespace Sys2Proof.Machine

theorem exec_cls (s : State) : exec .cls s = .next (s.setDisp Display.clear) := rfl

/-- Settles O37: `CLS` is the write of the clear display, each pixel of which is off, and writing a display leaves
everything else alone. -/
theorem clearTurnsEveryPixelOff : Obligations.ClearTurnsEveryPixelOff := by
  intro s
  refine ⟨_, exec_cls s, fun py px _ _ => ?_, rfl, State.byteAt_setDisp s _⟩
  rw [State.setDisp_disp, Display.pixel_clear]

end Sys2Proof.Machine
end

section
/-! SUPPORT. The outputs `BUZZ`, `halted` and `haltReason` as functions of the state (R26, R128). -/

namespace Sys2Proof.Machine

/-- `BUZZ` is on exactly while the sound timer is not zero (R128). -/
theorem State.buzz_iff (s : State) : s.buzz = true ↔ 0 < s.st.toNat := decide_eq_true_iff

/-- The output `haltReason` shows the reason the run state records, and only that (R26). -/
theorem State.haltReason_eq_some_iff (s : State) (r : FaultReason) : s.haltReason = some r ↔ s.mode = .halted r := by
  unfold State.haltReason
  cases s.mode with
  | running => simp
  | waitingForKey x => simp
  | halted r' => simp

/-- The output `halted` is on exactly in the run state Halted (R26). -/
theorem State.halted_iff (s : State) : s.halted = true ↔ s.IsHalted := by
  unfold State.halted State.IsHalted
  cases s.mode with
  | running => simp
  | waitingForKey x => simp
  | halted r => simp

/-- Settles O50: `BUZZ` compares the sound timer with zero, and the other two outputs read the run state alone. -/
theorem outputsReadTheState : Obligations.OutputsReadTheState :=
  fun s => ⟨s.buzz_iff, s.halted_iff, s.haltReason_eq_some_iff⟩

end Sys2Proof.Machine
end

section
/-! SUPPORT. The two outcomes of LOAD, told apart by the length of the ROM (R140, R141). -/

namespace Sys2Proof.Machine

theorem load_of_oversize (p : Params) {rom : List Byte} (h : Config.romMax < rom.length) :
    load p rom = .error .tooLarge := if_pos h

/-- A ROM that fits gives the machine of reset with the caller's settings, the font and the ROM in memory. -/
theorem load_of_fits (p : Params) {rom : List Byte} (h : rom.length ≤ Config.romMax) :
    load p rom = .ok { State.reset with quirks := p.quirks, rng := p.rngSeed, mem := loadedMem p.font.toList rom } :=
  if_neg (Nat.not_lt.mpr h)

/-- Settles O53: an oversize ROM gives the error, and a ROM that fits gives a machine, which is no error. -/
theorem loadRefusesOversizeRom : Obligations.LoadRefusesOversizeRom := by
  intro p rom
  constructor
  case mp => exact load_of_oversize p
  case mpr =>
    intro hload
    by_contra hfits
    rw [load_of_fits p (Nat.not_lt.mp hfits)] at hload
    cases hload

end Sys2Proof.Machine
end

section
/-! SUPPORT. Decoding undoes encoding, operands and all (R51 to R55). -/

namespace Sys2Proof

/-- Group 8 is decided by the low nibble (R55). -/
theorem decodeWord_alu {w : Word} (h : opField w = 0x8) :
    decodeWord w = decodeAlu (xField w) (yField w) (nField w).val := by
  simp only [decodeWord, h]

/-- Group E is decided by the low byte (R55). -/
theorem decodeWord_key {w : Word} (h : opField w = 0xE) :
    decodeWord w = decodeKey (xField w) (nnField w).toNat := by
  simp only [decodeWord, h]

/-- Group F is decided by the low byte (R55). -/
theorem decodeWord_misc {w : Word} (h : opField w = 0xF) :
    decodeWord w = decodeMisc (xField w) (nnField w).toNat := by
  simp only [decodeWord, h]

/-- The word of a group 8 instruction is decoded by its nibble alone. -/
theorem decodeWord_wordXYN_alu (x y : Reg) (n : Rows) : decodeWord (wordXYN 0x8 x y n) = decodeAlu x y n.val := by
  rw [decodeWord_alu (by simp), xField_wordXYN, yField_wordXYN, nField_wordXYN]

/-- The word of a group E instruction is decoded by its low byte alone. -/
theorem decodeWord_wordXNN_key (x : Reg) (nn : Byte) : decodeWord (wordXNN 0xE x nn) = decodeKey x nn.toNat := by
  rw [decodeWord_key (by simp), xField_wordXNN, nnField_wordXNN]

/-- The word of a group F instruction is decoded by its low byte alone. -/
theorem decodeWord_wordXNN_misc (x : Reg) (nn : Byte) : decodeWord (wordXNN 0xF x nn) = decodeMisc x nn.toNat := by
  rw [decodeWord_misc (by simp), xField_wordXNN, nnField_wordXNN]

/-- Settles O1: the group and the fields of an encoded word are the ones it was built from, and in the groups 8, E and F
the nibble or byte put there is the one the decoder selects the instruction by. -/
theorem decodeEncodeAllInstructions : Obligations.DecodeEncodeAllInstructions := by
  intro i
  cases i with
  | cls | ret => rfl
  | jp | call | ldI | jpV0 => simp [encode, decodeWord]
  | seImm | sneImm | ldImm | addImm | rnd => simp [encode, decodeWord]
  | seReg | sneReg | drw => simp [encode, decodeWord]
  | ldReg x y | orReg x y | andReg x y | xorReg x y | addReg x y | subReg x y | shr x y | subnReg x y | shl x y =>
    exact decodeWord_wordXYN_alu x y _
  | skp x | sknp x => exact decodeWord_wordXNN_key x _
  | ldVxDT x | ldVxK x | ldDTVx x | ldSTVx x | addI x | ldF x | ldB x | storeRegs x | loadRegs x =>
    exact decodeWord_wordXNN_misc x _

/-- Settles O6: the two bytes of an instruction put together are its word, which decodes to it (O1). -/
theorem decodeBytesOfEncodedInstruction : Obligations.DecodeBytesOfEncodedInstruction := by
  intro i rest
  simp only [encodeBytes, List.cons_append, List.nil_append, decodeBytes, wordOfBytes_halves,
    decodeEncodeAllInstructions i]

/-- Settles O5: the nine words are closed terms, and the decoder computes on them. -/
theorem sampleWordsDecode : Obligations.SampleWordsDecode := by
  unfold Obligations.SampleWordsDecode
  decide

end Sys2Proof
end

section
/-! SUPPORT. A word is made of its fields, so encoding undoes decoding (R51, R52, R55). -/

namespace Sys2Proof

theorem wordNNN_of_fields {w : Word} {op : BitVec 4} (h : opField w = op.toNat) : wordNNN op (nnnField w) = w := by
  apply BitVec.eq_of_toNat_eq
  rw [opField_eq] at h
  rw [wordNNN_toNat, nnnField_toNat]
  omega

theorem wordXNN_of_fields {w : Word} {op : BitVec 4} (h : opField w = op.toNat) :
    wordXNN op (xField w) (nnField w) = w := by
  apply BitVec.eq_of_toNat_eq
  rw [opField_eq] at h
  rw [wordXNN_toNat, xField_val, nnField_toNat]
  omega

theorem wordXYN_of_fields {w : Word} {op : BitVec 4} (h : opField w = op.toNat) :
    wordXYN op (xField w) (yField w) (nField w) = w := by
  apply BitVec.eq_of_toNat_eq
  rw [opField_eq] at h
  rw [wordXYN_toNat, xField_val, yField_val, nField_val]
  omega

/-- Group 8: the instruction's word has the operands and the nibble it was decoded from. -/
theorem encode_of_decodeAlu {x y : Reg} {n : Rows} {i : Instr} (h : decodeAlu x y n.val = .ok i) :
    encode i = wordXYN 0x8 x y n := by
  revert h
  fin_cases n <;> intro h <;> cases h <;> rfl

/-- Group E: the instruction's word has the operand and the byte it was decoded from. -/
theorem encode_of_decodeKey {x : Reg} {nn : Byte} {i : Instr} (h : decodeKey x nn.toNat = .ok i) :
    encode i = wordXNN 0xE x nn := by
  unfold decodeKey at h
  split at h <;> cases h <;> exact congrArg (wordXNN 0xE x) (BitVec.eq_of_toNat_eq (Eq.symm ‹_›))

/-- Group F: the instruction's word has the operand and the byte it was decoded from. -/
theorem encode_of_decodeMisc {x : Reg} {nn : Byte} {i : Instr} (h : decodeMisc x nn.toNat = .ok i) :
    encode i = wordXNN 0xF x nn := by
  unfold decodeMisc at h
  split at h <;> cases h <;> exact congrArg (wordXNN 0xF x) (BitVec.eq_of_toNat_eq (Eq.symm ‹_›))

end Sys2Proof
end

section
/-! SUPPORT. A word that decodes is the word of the instruction it decodes to (R54, R55). -/

namespace Sys2Proof

theorem opField_lt (w : Word) : opField w < 16 := by
  rw [opField_eq]
  exact Nat.mod_lt _ (by decide)

/-- The word of two fixed nibbles and two registers, from a word with these nibbles. -/
theorem wordXYN_of_fields_low {w : Word} {op : BitVec 4} {n : Rows} (h : opField w = op.toNat) (hn : nField w = n) :
    wordXYN op (xField w) (yField w) n = w :=
  hn ▸ wordXYN_of_fields h

/-- Settles O2: a legal word is made of its group and its fields, and these are what its instruction is encoded from. -/
theorem encodeOfDecodedWord : Obligations.EncodeOfDecodedWord := by
  intro w i h
  have hlt := opField_lt w
  unfold decodeWord at h
  split at h
  case h_1 =>
    split at h
    · cases h; exact Eq.symm ‹_›
    · split at h <;> cases h
      exact Eq.symm ‹_›
  case h_6 | h_10 =>
    split at h <;> cases h
    exact wordXYN_of_fields_low ‹_› ‹_›
  case h_9 => exact (encode_of_decodeAlu h).trans (wordXYN_of_fields ‹_›)
  case h_14 => cases h; exact wordXYN_of_fields ‹_›
  case h_15 => exact (encode_of_decodeKey h).trans (wordXNN_of_fields ‹_›)
  case h_16 =>
    have hop : opField w = 0xF := by simp only [imp_false] at *; omega
    exact (encode_of_decodeMisc h).trans (wordXNN_of_fields hop)
  case h_2 | h_3 | h_11 | h_12 => cases h; exact wordNNN_of_fields ‹_›
  case h_4 | h_5 | h_7 | h_8 | h_13 => cases h; exact wordXNN_of_fields ‹_›

end Sys2Proof
end

section
/-! SUPPORT. The opcode table selects exactly the words that decode, each by one row (R54). -/

namespace Sys2Proof

/-- Every instruction's row is in the table and selects the instruction's word. -/
theorem encodesInRow (i : Instr) : Laws.EncodesInRow.Statement i := by
  cases i with
  | cls => exact Laws.EncodesInRow.cls
  | ret => exact Laws.EncodesInRow.ret
  | jp nnn => exact Laws.EncodesInRow.jp nnn
  | call nnn => exact Laws.EncodesInRow.call nnn
  | seImm x nn => exact Laws.EncodesInRow.seImm x nn
  | sneImm x nn => exact Laws.EncodesInRow.sneImm x nn
  | seReg x y => exact Laws.EncodesInRow.seReg x y
  | ldImm x nn => exact Laws.EncodesInRow.ldImm x nn
  | addImm x nn => exact Laws.EncodesInRow.addImm x nn
  | ldReg x y => exact Laws.EncodesInRow.ldReg x y
  | orReg x y => exact Laws.EncodesInRow.orReg x y
  | andReg x y => exact Laws.EncodesInRow.andReg x y
  | xorReg x y => exact Laws.EncodesInRow.xorReg x y
  | addReg x y => exact Laws.EncodesInRow.addReg x y
  | subReg x y => exact Laws.EncodesInRow.subReg x y
  | shr x y => exact Laws.EncodesInRow.shr x y
  | subnReg x y => exact Laws.EncodesInRow.subnReg x y
  | shl x y => exact Laws.EncodesInRow.shl x y
  | sneReg x y => exact Laws.EncodesInRow.sneReg x y
  | ldI nnn => exact Laws.EncodesInRow.ldI nnn
  | jpV0 nnn => exact Laws.EncodesInRow.jpV0 nnn
  | rnd x nn => exact Laws.EncodesInRow.rnd x nn
  | drw x y n => exact Laws.EncodesInRow.drw x y n
  | skp x => exact Laws.EncodesInRow.skp x
  | sknp x => exact Laws.EncodesInRow.sknp x
  | ldVxDT x => exact Laws.EncodesInRow.ldVxDT x
  | ldVxK x => exact Laws.EncodesInRow.ldVxK x
  | ldDTVx x => exact Laws.EncodesInRow.ldDTVx x
  | ldSTVx x => exact Laws.EncodesInRow.ldSTVx x
  | addI x => exact Laws.EncodesInRow.addI x
  | ldF x => exact Laws.EncodesInRow.ldF x
  | ldB x => exact Laws.EncodesInRow.ldB x
  | storeRegs x => exact Laws.EncodesInRow.storeRegs x
  | loadRegs x => exact Laws.EncodesInRow.loadRegs x

/-- Where the mask of a group finds its pattern, the word is of that group. -/
theorem opField_of_mask_group {w : Word} {op : BitVec 4} (h : w &&& 0xF000 = wordNNN op 0) :
    opField w = op.toNat := by
  have hw : wordNNN (BitVec.ofNat 4 (opField w)) (nnnField w) = w :=
    wordNNN_of_fields (by simp [Nat.mod_eq_of_lt (opField_lt w)])
  rw [← hw, wordNNN_mask] at h
  have := congrArg opField h
  simpa [Nat.mod_eq_of_lt (opField_lt w)] using this

/-- Where the mask of format `X` finds its pattern, the word has that group and low byte. -/
theorem fields_of_mask_x {w : Word} {op : BitVec 4} {nn : Byte} (h : w &&& 0xF0FF = wordXNN op 0 nn) :
    wordXNN op (xField w) nn = w := by
  have hw : wordXNN (BitVec.ofNat 4 (opField w)) (xField w) (nnField w) = w :=
    wordXNN_of_fields (by simp [Nat.mod_eq_of_lt (opField_lt w)])
  have hm := h
  rw [← hw, wordXNN_mask] at hm
  have hop := congrArg opField hm
  have hnn := congrArg nnField hm
  rw [nnField_wordXNN, nnField_wordXNN] at hnn
  rw [opField_wordXNN, opField_wordXNN] at hop
  rw [← hnn, ← BitVec.eq_of_toNat_eq hop]
  exact hw

/-- Where the mask of format `XY` finds its pattern, the word has that group and low nibble. -/
theorem fields_of_mask_xy {w : Word} {op : BitVec 4} {n : Rows} (h : w &&& 0xF00F = wordXYN op 0 0 n) :
    wordXYN op (xField w) (yField w) n = w := by
  have hw : wordXYN (BitVec.ofNat 4 (opField w)) (xField w) (yField w) (nField w) = w :=
    wordXYN_of_fields (by simp [Nat.mod_eq_of_lt (opField_lt w)])
  have hm := h
  rw [← hw, wordXYN_mask] at hm
  have hop := congrArg opField hm
  have hn := congrArg nField hm
  rw [nField_wordXYN, nField_wordXYN] at hn
  rw [opField_wordXYN, opField_wordXYN] at hop
  rw [← hn, ← BitVec.eq_of_toNat_eq hop]
  exact hw

theorem OpcodeRow.selects_iff (r : OpcodeRow) (w : Word) : r.selects w = true ↔ w &&& r.mask = r.pattern :=
  beq_iff_eq

/-- A word that an instruction's row selects is the word of some instruction. -/
theorem encoded_of_row_selects {i : Instr} {w : Word} (h : i.row.selects w = true) : ∃ j, encode j = w := by
  rw [OpcodeRow.selects_iff] at h
  cases i with
  | cls => exact ⟨.cls, h.symm.trans (BitVec.and_allOnes (x := w))⟩
  | ret => exact ⟨.ret, h.symm.trans (BitVec.and_allOnes (x := w))⟩
  | jp => exact ⟨.jp _, wordNNN_of_fields (opField_of_mask_group h)⟩
  | call => exact ⟨.call _, wordNNN_of_fields (opField_of_mask_group h)⟩
  | ldI => exact ⟨.ldI _, wordNNN_of_fields (opField_of_mask_group h)⟩
  | jpV0 => exact ⟨.jpV0 _, wordNNN_of_fields (opField_of_mask_group h)⟩
  | seImm => exact ⟨.seImm _ _, wordXNN_of_fields (opField_of_mask_group h)⟩
  | sneImm => exact ⟨.sneImm _ _, wordXNN_of_fields (opField_of_mask_group h)⟩
  | ldImm => exact ⟨.ldImm _ _, wordXNN_of_fields (opField_of_mask_group h)⟩
  | addImm => exact ⟨.addImm _ _, wordXNN_of_fields (opField_of_mask_group h)⟩
  | rnd => exact ⟨.rnd _ _, wordXNN_of_fields (opField_of_mask_group h)⟩
  | drw => exact ⟨.drw _ _ _, wordXYN_of_fields (opField_of_mask_group h)⟩
  | seReg => exact ⟨.seReg _ _, fields_of_mask_xy h⟩
  | ldReg => exact ⟨.ldReg _ _, fields_of_mask_xy h⟩
  | orReg => exact ⟨.orReg _ _, fields_of_mask_xy h⟩
  | andReg => exact ⟨.andReg _ _, fields_of_mask_xy h⟩
  | xorReg => exact ⟨.xorReg _ _, fields_of_mask_xy h⟩
  | addReg => exact ⟨.addReg _ _, fields_of_mask_xy h⟩
  | subReg => exact ⟨.subReg _ _, fields_of_mask_xy h⟩
  | shr => exact ⟨.shr _ _, fields_of_mask_xy h⟩
  | subnReg => exact ⟨.subnReg _ _, fields_of_mask_xy h⟩
  | shl => exact ⟨.shl _ _, fields_of_mask_xy h⟩
  | sneReg => exact ⟨.sneReg _ _, fields_of_mask_xy h⟩
  | skp => exact ⟨.skp _, fields_of_mask_x h⟩
  | sknp => exact ⟨.sknp _, fields_of_mask_x h⟩
  | ldVxDT => exact ⟨.ldVxDT _, fields_of_mask_x h⟩
  | ldVxK => exact ⟨.ldVxK _, fields_of_mask_x h⟩
  | ldDTVx => exact ⟨.ldDTVx _, fields_of_mask_x h⟩
  | ldSTVx => exact ⟨.ldSTVx _, fields_of_mask_x h⟩
  | addI => exact ⟨.addI _, fields_of_mask_x h⟩
  | ldF => exact ⟨.ldF _, fields_of_mask_x h⟩
  | ldB => exact ⟨.ldB _, fields_of_mask_x h⟩
  | storeRegs => exact ⟨.storeRegs _, fields_of_mask_x h⟩
  | loadRegs => exact ⟨.loadRegs _, fields_of_mask_x h⟩

/-- A well-formed word decodes: it is the word of some instruction (O1). -/
theorem decodes_of_wellFormed {w : Word} (h : wellFormedWord w = true) : ∃ i, decodeWord w = .ok i := by
  obtain ⟨r, hr, hsel⟩ := List.any_eq_true.1 h
  obtain ⟨j, -, rfl⟩ := List.mem_map.1 hr
  obtain ⟨i, rfl⟩ := encoded_of_row_selects hsel
  exact ⟨i, decodeEncodeAllInstructions i⟩

/-- A word that decodes is well formed: the row of its instruction selects it. -/
theorem row_selects_of_decodes {w : Word} {i : Instr} (h : decodeWord w = .ok i) :
    i.row ∈ opcodeTable ∧ i.row.selects w = true := by
  obtain ⟨hsel, hmem⟩ := encodesInRow i
  rw [encodeOfDecodedWord w i h] at hsel
  exact ⟨hmem, hsel⟩

theorem decodes_iff_wellFormed (w : Word) : (∃ i, decodeWord w = .ok i) ↔ wellFormedWord w = true :=
  ⟨fun ⟨_, h⟩ => List.any_eq_true.2 ⟨_, row_selects_of_decodes h⟩, decodes_of_wellFormed⟩

/-- A word is rejected exactly when no row of the table selects it. -/
theorem rejected_iff_not_wellFormed (w : Word) : (∃ e, decodeWord w = .error e) ↔ wellFormedWord w = false := by
  rw [← Bool.not_eq_true, ← decodes_iff_wellFormed]
  cases decodeWord w <;> simp

/-- No word is selected by two disjoint rows: both patterns would be the word under both masks. -/
theorem OpcodeRow.not_selects_of_disjoint {r q : OpcodeRow} {w : Word} (h : r.disjoint q = true)
    (hr : r.selects w = true) : ¬q.selects w = true := by
  rw [OpcodeRow.selects_iff] at hr ⊢
  intro hq
  have hne : r.pattern &&& q.mask ≠ q.pattern &&& r.mask := bne_iff_ne.1 h
  exact hne (by rw [← hr, ← hq, BitVec.and_assoc, BitVec.and_assoc, BitVec.and_comm r.mask])

theorem OpcodeRow.disjoint_symm {r q : OpcodeRow} (h : r.disjoint q = true) : q.disjoint r = true :=
  bne_iff_ne.2 (Ne.symm (bne_iff_ne.1 h))

/-- The rows of the table are pairwise disjoint (R54). -/
theorem opcodeTable_disjoint {r q : OpcodeRow} (hr : r ∈ opcodeTable) (hq : q ∈ opcodeTable) (hne : r ≠ q) :
    r.disjoint q = true := by
  have hpair : opcodeTable.Pairwise fun r q => r.disjoint q = true := by decide
  have hsymm : Std.Symm fun r q : OpcodeRow => r.disjoint q = true := ⟨fun _ _ => OpcodeRow.disjoint_symm⟩
  exact hpair.forall hr hq hne

/-- Settles O3: the rows are disjoint, a legal word is its instruction's word and so in its instruction's row, and a
word in any row is the word of an instruction and so not rejected. -/
theorem decodeAgreesWithOpcodeTable : Obligations.DecodeAgreesWithOpcodeTable := by
  refine ⟨rfl, fun w r q hr hq hsr hsq => ?disjoint, fun w i => row_selects_of_decodes, fun w e h => ?rejected⟩
  case disjoint =>
    by_contra hne
    exact OpcodeRow.not_selects_of_disjoint (opcodeTable_disjoint hr hq hne) hsr hsq
  case rejected => exact (rejected_iff_not_wellFormed w).1 ⟨e, h⟩

end Sys2Proof
end

section
/-! SUPPORT. The illegal words, class by class (R56). -/

namespace Sys2Proof

/-- The words of each class, as the rows of R56's table give them. -/
def Reject.Class : Reject → Word → Prop
  | .zeroGroup, w => w.toNat < 0x1000 ∧ w.toNat ≠ 0x00E0 ∧ w.toNat ≠ 0x00EE
  | .seLowNibble, w => w.toNat / 4096 = 0x5 ∧ w.toNat % 16 ≠ 0
  | .aluSubOp, w => w.toNat / 4096 = 0x8 ∧ (8 ≤ w.toNat % 16 ∧ w.toNat % 16 ≤ 0xD ∨ w.toNat % 16 = 0xF)
  | .sneLowNibble, w => w.toNat / 4096 = 0x9 ∧ w.toNat % 16 ≠ 0
  | .keyGroup, w => w.toNat / 4096 = 0xE ∧ w.toNat % 256 ≠ 0x9E ∧ w.toNat % 256 ≠ 0xA1
  | .miscGroup, w => w.toNat / 4096 = 0xF ∧ w.toNat % 256 ∉ [0x07, 0x0A, 0x15, 0x18, 0x1E, 0x29, 0x33, 0x55, 0x65]
  | .tooFewBytes, _ => False

theorem opField_eq_div (w : Word) : opField w = w.toNat / 4096 := by
  rw [opField_eq]
  omega

theorem nField_eq_zero_iff (w : Word) : nField w = 0 ↔ w.toNat % 16 = 0 := by
  rw [← nField_val, Fin.ext_iff]
  rfl

/-- Group 8 rejects a nibble exactly when no operation has it. -/
theorem decodeAlu_error_iff {x y : Reg} {n : Nat} (hn : n < 16) (e : Reject) :
    decodeAlu x y n = .error e ↔ e = .aluSubOp ∧ (8 ≤ n ∧ n ≤ 0xD ∨ n = 0xF) := by
  interval_cases n <;> simp [decodeAlu, eq_comm]

/-- Group E rejects a byte exactly when no skip has it. -/
theorem decodeKey_error_iff {x : Reg} {nn : Nat} (e : Reject) :
    decodeKey x nn = .error e ↔ e = .keyGroup ∧ nn ≠ 0x9E ∧ nn ≠ 0xA1 := by
  unfold decodeKey
  split <;> simp_all [eq_comm]

/-- Group F rejects a byte exactly when no operation has it. -/
theorem decodeMisc_error_iff {x : Reg} {nn : Nat} (e : Reject) :
    decodeMisc x nn = .error e ↔ e = .miscGroup ∧ nn ∉ [0x07, 0x0A, 0x15, 0x18, 0x1E, 0x29, 0x33, 0x55, 0x65] := by
  unfold decodeMisc
  split <;> simp_all [eq_comm]

/-- A rejected word is of the class it is rejected under. -/
theorem class_of_decodeWord_error {w : Word} {e : Reject} (h : decodeWord w = .error e) : e.Class w := by
  have hlt := opField_lt w
  have hdiv := opField_eq_div w
  unfold decodeWord at h
  split at h
  case h_1 =>
    split at h
    · cases h
    · rename_i hcls
      split at h <;> cases h
      rename_i hret
      exact ⟨by omega, fun hE0 => hcls (BitVec.eq_of_toNat_eq hE0), fun hEE => hret (BitVec.eq_of_toNat_eq hEE)⟩
  case h_6 | h_10 =>
    split at h <;> cases h
    exact ⟨by omega, (nField_eq_zero_iff w).not.1 ‹_›⟩
  case h_9 =>
    obtain ⟨rfl, hn⟩ := (decodeAlu_error_iff (nField w).isLt e).1 h
    rw [nField_val] at hn
    exact ⟨by omega, hn⟩
  case h_15 =>
    obtain ⟨rfl, hnn⟩ := (decodeKey_error_iff e).1 h
    rw [nnField_toNat] at hnn
    exact ⟨by omega, hnn⟩
  case h_16 =>
    have hop : opField w = 0xF := by simp only [imp_false] at *; omega
    obtain ⟨rfl, hnn⟩ := (decodeMisc_error_iff e).1 h
    rw [nnField_toNat] at hnn
    exact ⟨by omega, hnn⟩
  all_goals cases h

/-- A word of a class is rejected under that class. -/
theorem decodeWord_error_of_class {w : Word} {e : Reject} (h : e.Class w) : decodeWord w = .error e := by
  have hdiv := opField_eq_div w
  cases e with
  | zeroGroup =>
    obtain ⟨hlt, hE0, hEE⟩ := h
    have hop : opField w = 0 := by omega
    have hcls : w ≠ 0x00E0 := fun hw => hE0 (hw ▸ rfl)
    have hret : w ≠ 0x00EE := fun hw => hEE (hw ▸ rfl)
    simp only [decodeWord, hop, if_neg hcls, if_neg hret]
  | seLowNibble | sneLowNibble =>
    obtain ⟨hop, hn⟩ := h
    simp only [decodeWord, hdiv, hop, if_neg ((nField_eq_zero_iff w).not.2 hn)]
  | aluSubOp =>
    obtain ⟨hop, hn⟩ := h
    rw [decodeWord_alu (hdiv.trans hop), nField_val]
    exact (decodeAlu_error_iff (Nat.mod_lt _ (by decide)) _).2 ⟨rfl, hn⟩
  | keyGroup =>
    obtain ⟨hop, hnn⟩ := h
    rw [decodeWord_key (hdiv.trans hop), nnField_toNat]
    exact (decodeKey_error_iff _).2 ⟨rfl, hnn⟩
  | miscGroup =>
    obtain ⟨hop, hnn⟩ := h
    rw [decodeWord_misc (hdiv.trans hop), nnField_toNat]
    exact (decodeMisc_error_iff _).2 ⟨rfl, hnn⟩
  | tooFewBytes => exact h.elim

theorem decodeWord_error_iff (w : Word) (e : Reject) : decodeWord w = .error e ↔ e.Class w :=
  ⟨class_of_decodeWord_error, decodeWord_error_of_class⟩

/-- Settles O4: a word is rejected under a name exactly when it is of that class, and no word is of the class of missing
bytes. -/
theorem illegalWordsAreRejectedByClass : Obligations.IllegalWordsAreRejectedByClass := fun w =>
  ⟨decodeWord_error_iff w .zeroGroup, decodeWord_error_iff w .seLowNibble, decodeWord_error_iff w .aluSubOp,
    decodeWord_error_iff w .sneLowNibble, decodeWord_error_iff w .keyGroup, decodeWord_error_iff w .miscGroup,
    (decodeWord_error_iff w .tooFewBytes).1⟩

end Sys2Proof
end

section
/-! SUPPORT. The fetch and the three ways a running machine takes a STEP (R60 to R62). -/

namespace Sys2Proof.Machine

/-- Entering a fault changes the run state alone (R121). -/
theorem State.faultEntered_raise (s : State) (r : FaultReason) : FaultEntered r s (s.raise r) :=
  ⟨rfl, State.byteAt_raise s r⟩

/-- A jump changes `pc` alone. -/
theorem State.onlyPc_jumpTo (s : State) (w : Word) : OnlyPc s (s.jumpTo w) := ⟨rfl, State.byteAt_jumpTo s w⟩

theorem State.fetch_of_fits {s : State} (h : s.pc.toNat + 1 < 4096) : s.fetch = .ok (s.wordAtPc, s.advance) := if_pos h

theorem State.fetch_past_end {s : State} (h : 4096 ≤ s.pc.toNat + 1) : s.fetch = .error .addressOutOfRange :=
  if_neg (Nat.not_lt.2 h)

/-- The fetch advances `pc` by 2, without a wrap where it succeeds (R61). -/
theorem State.advance_pc_toNat {s : State} (h : s.pc.toNat + 1 < 4096) : s.advance.pc.toNat = s.pc.toNat + 2 := by
  have h2 : (2 : Word).toNat = 2 := rfl
  rw [State.advance_pc, BitVec.toNat_add, h2]
  omega

/-- Settles O7: the fetch tests the second of its two bytes, and where it succeeds its word is the two bytes at `pc`
and its state the advanced one. -/
theorem fetchReadsBigEndianAndAdvances : Obligations.FetchReadsBigEndianAndAdvances := fun s =>
  ⟨State.fetch_past_end, fun h =>
    ⟨_, _, State.fetch_of_fits h, s.wordAtPc_toNat, State.advance_pc_toNat h, State.onlyPc_jumpTo s _⟩⟩

theorem step_of_fetch_fault {s : State} (hm : s.mode = .running) (hp : 4096 ≤ s.pc.toNat + 1) :
    step s = .next (s.raise .addressOutOfRange) := by
  simp only [step, hm, State.fetch_past_end hp]

theorem step_of_rejected {s : State} {e : Reject} (hm : s.mode = .running) (hp : s.pc.toNat + 1 < 4096)
    (hd : decodeWord s.wordAtPc = .error e) : step s = .next (s.advance.raise .unknownOpcode) := by
  simp only [step, hm, State.fetch_of_fits hp, hd]

theorem step_of_decoded {s : State} {i : Instr} (hm : s.mode = .running) (hp : s.pc.toNat + 1 < 4096)
    (hd : decodeWord s.wordAtPc = .ok i) : step s = exec i s.advance := by
  simp only [step, hm, State.fetch_of_fits hp, hd]

/-- Settles O8: the two bytes named are the fetched word, and the advanced state is the one exec starts from. -/
theorem stepRunsDecodedInstruction : Obligations.StepRunsDecodedInstruction := by
  intro s w i hm hp hw hd
  obtain rfl : s.wordAtPc = w := BitVec.eq_of_toNat_eq (s.wordAtPc_toNat.trans hw.symm)
  exact step_of_decoded hm hp hd

/-- Settles O9: past the end the fetch faults before `pc` moves; a word in no row of the table is rejected (O3), after
the fetch moved `pc`. -/
theorem stepEntersFetchAndDecodeFaults : Obligations.StepEntersFetchAndDecodeFaults := by
  refine fun s hm => ⟨fun hp => ?fetch, fun hp hw => ?decode⟩
  case fetch => exact ⟨_, step_of_fetch_fault hm hp, s.faultEntered_raise _⟩
  case decode =>
    obtain ⟨e, hd⟩ := (rejected_iff_not_wellFormed s.wordAtPc).2 hw
    exact ⟨_, step_of_rejected hm hp hd, s.advance.faultEntered_raise _⟩

/-- Settles O10: a STEP outside `Running` is the identity. -/
theorem stepDoesNothingUnlessRunning : Obligations.StepDoesNothingUnlessRunning := fun _ => step_of_not_running

/-- Settles O13: placing a word sets `Running` and a `pc` that can be fetched from, the word is read back there, and the
word of an instruction decodes to it (O1). -/
theorem placedWordRunsNext : Obligations.PlacedWordRunsNext := by
  intro s i hmem
  rw [State.withFetchWord, tableWord_toNat]
  refine step_of_decoded rfl (fetchSlot_bound s) ?_
  rw [State.wordAtPc_placeWord s hmem]
  exact decodeEncodeAllInstructions i

end Sys2Proof.Machine
end

section
/-! SUPPORT. The jumps, CALL and RET (R63 to R66), and calls in sequence. -/

namespace Sys2Proof.Machine

theorem exec_jp (nnn : Addr12) (s : State) : exec (.jp nnn) s = .next (s.jumpTo (addrOf nnn)) := rfl

theorem exec_jpV0 (nnn : Addr12) (s : State) : exec (.jpV0 nnn) s = .next (s.jumpTo (s.indexedTarget nnn)) := rfl

/-- The target of `JP V0` is the full sum: it is far from the end of 16 bits (R66). -/
theorem State.indexedTarget_toNat (s : State) (nnn : Addr12) :
    (s.indexedTarget nnn).toNat = nnn.toNat + (s.getV 0).toNat := by
  have hn := nnn.isLt
  have hv := (s.getV 0).isLt
  rw [State.indexedTarget, BitVec.toNat_add, addrOf_toNat, BitVec.toNat_setWidth]
  omega

/-- Settles O18: both are jumps, to the address and to the sum, which does not wrap. -/
theorem jumpsSetPc : Obligations.JumpsSetPc := fun nnn s =>
  ⟨⟨_, exec_jp nnn s, addrOf_toNat nnn, s.onlyPc_jumpTo _⟩,
    ⟨_, exec_jpV0 nnn s, s.indexedTarget_toNat nnn, s.onlyPc_jumpTo _⟩⟩

/-- The state after a RET that takes slot `k`. -/
def State.returned (s : State) (k : Fin 16) : State := { s with pc := s.stack[k], sp := k.castSucc }

/-- The state after a CALL that fills slot `k`. -/
def State.called (s : State) (k : Fin 16) (nnn : Addr12) : State :=
  { s with pc := addrOf nnn, sp := k.succ, stack := s.stack.set k s.pc }

theorem exec_ret_of_held {s : State} {k : Fin 16} (h : s.sp.val = k.val + 1) :
    exec .ret s = .next (s.returned k) := by
  have hpop := s.pop_ok (by omega)
  simp only [exec, execRet, hpop, State.jumpTo, State.returned, h, Nat.add_sub_cancel]
  rfl

theorem exec_ret_of_none {s : State} (h : s.sp = 0) : exec .ret s = .next (s.raise .stackUnderflow) := by
  simp only [exec, execRet, s.pop_empty h]

theorem exec_call_of_room {s : State} {k : Fin 16} (h : s.sp.val = k.val) (nnn : Addr12) :
    exec (.call nnn) s = .next (s.called k nnn) := by
  have hpush := s.push_ok s.pc (by omega)
  simp only [exec, execCall, hpush, State.jumpTo, State.called, h]
  rfl

theorem exec_call_of_full {s : State} (h : s.sp = 16) (nnn : Addr12) :
    exec (.call nnn) s = .next (s.raise .stackOverflow) := by
  simp only [exec, execCall, s.push_full s.pc h]

theorem State.stack_called_same (s : State) (k : Fin 16) (nnn : Addr12) : (s.called k nnn).stack[k] = s.pc := by
  simp [State.called]

theorem State.stack_called_other (s : State) {k j : Fin 16} (h : j ≠ k) (nnn : Addr12) :
    (s.called k nnn).stack[j] = s.stack[j] := by
  have : k.val ≠ j.val := fun hkj => h (Fin.ext hkj.symm)
  simp [State.called, this]

/-- Settles O14: a RET with an address held takes the top slot, one with none held faults. -/
theorem returnPopsOrUnderflows : Obligations.ReturnPopsOrUnderflows := fun s =>
  ⟨fun _ hk => ⟨_, exec_ret_of_held hk, rfl, rfl, rfl, fun _ => rfl⟩,
    fun h => ⟨_, exec_ret_of_none h, s.faultEntered_raise _⟩⟩

/-- Settles O15: a CALL with room fills the first free slot with `pc`, one with none faults. -/
theorem callPushesOrOverflows : Obligations.CallPushesOrOverflows := fun nnn s =>
  ⟨fun k hk => ⟨_, exec_call_of_room hk nnn, s.stack_called_same k nnn, fun _ hj => s.stack_called_other hj nnn, rfl,
      addrOf_toNat nnn, rfl, fun _ => rfl⟩,
    fun h => ⟨_, exec_call_of_full h nnn, s.faultEntered_raise _⟩⟩

/-- A sequence whose first instruction answers a next state. -/
theorem execAll_cons {i : Instr} {is : List Instr} {s t : State} (h : exec i s = .next t) :
    execAll (i :: is) s = execAll is t := by
  simp only [execAll, h]

/-- Settles O16: the RET takes the slot the CALL filled, which holds `pc`, and the depth goes up and down by one. -/
theorem returnResumesAfterCall : Obligations.ReturnResumesAfterCall := by
  intro nnn s hroom
  obtain ⟨k, hk⟩ : ∃ k : Fin 16, s.sp.val = k.val := ⟨⟨s.sp.val, hroom⟩, rfl⟩
  have hpc : ((s.called k nnn).returned k).pc = s.pc := s.stack_called_same k nnn
  have hsp : ((s.called k nnn).returned k).sp = s.sp := Fin.ext hk.symm
  refine ⟨(s.called k nnn).returned k, ?run, hpc, hsp, fun j hj => ?kept, ?frame⟩
  case run => rw [execAll_cons (exec_call_of_room hk nnn), execAll_cons (exec_ret_of_held rfl)]; rfl
  case kept => exact s.stack_called_other (Fin.ne_of_lt (show j.val < k.val by omega)) nnn
  case frame =>
    calc (s.called k nnn).returned k
        = { s with pc := ((s.called k nnn).returned k).pc, sp := ((s.called k nnn).returned k).sp,
                   stack := ((s.called k nnn).returned k).stack } := rfl
      _ = _ := by rw [hpc, hsp]

/-- Settles O17, by induction on the calls: each fills the slot above those held, so those stay, and when sixteen are
held a further call has no room. -/
theorem callsNestSixteenDeep : Obligations.CallsNestSixteenDeep := by
  intro targets
  induction targets with
  | nil =>
    intro s _
    refine ⟨s, rfl, rfl, rfl, fun _ _ => rfl, fun hfull nnn => ⟨_, exec_call_of_full (Fin.ext hfull) nnn, ?_⟩⟩
    exact s.faultEntered_raise _
  | cons nnn targets ih =>
    intro s hfit
    rw [List.length_cons] at hfit ⊢
    obtain ⟨k, hk⟩ : ∃ k : Fin 16, s.sp.val = k.val := ⟨⟨s.sp.val, by omega⟩, rfl⟩
    have hsp : (s.called k nnn).sp.val = s.sp.val + 1 := congrArg (· + 1) hk.symm
    obtain ⟨t, hrun, htsp, hmode, hkept, hover⟩ := ih (s.called k nnn) (by omega)
    refine ⟨t, (execAll_cons (exec_call_of_room hk nnn)).trans hrun, by omega, hmode, fun j hj => ?_, fun hfull => ?_⟩
    · rw [hkept j (by omega)]
      exact s.stack_called_other (Fin.ne_of_lt (show j.val < k.val by omega)) nnn
    · exact hover (by omega)

end Sys2Proof.Machine
end

section
/-! SUPPORT. A result and a flag written together, said once for the five instructions whose meaning is that (R75, R82
to R86). -/

namespace Sys2Proof.Machine

theorem exec_addReg (x y : Reg) (s : State) : exec (.addReg x y) s =
    .next (s.setResultAndFlag x (s.getV x + s.getV y) (carryOut (s.getV x) (s.getV y))) := rfl

theorem exec_subReg (x y : Reg) (s : State) : exec (.subReg x y) s =
    .next (s.setResultAndFlag x (s.getV x - s.getV y) (notBorrow (s.getV x) (s.getV y))) := rfl

theorem exec_subnReg (x y : Reg) (s : State) : exec (.subnReg x y) s =
    .next (s.setResultAndFlag x (s.getV y - s.getV x) (notBorrow (s.getV y) (s.getV x))) := rfl

theorem exec_shr (x y : Reg) (s : State) : exec (.shr x y) s =
    .next (s.setResultAndFlag x (s.shiftOperand x y >>> 1) (outRight (s.shiftOperand x y))) := rfl

theorem exec_shl (x y : Reg) (s : State) : exec (.shl x y) s =
    .next (s.setResultAndFlag x (s.shiftOperand x y <<< 1) (outLeft (s.shiftOperand x y))) := rfl

/-- A result and a flag leave every register but the destination and VF alone. -/
theorem State.sameRegsBut_setResultAndFlag (s : State) (x : Reg) (b : Byte) (f : Bool) :
    SameRegsBut [x, 15] s (s.setResultAndFlag x b f) := by
  intro r hr
  simp only [List.mem_cons, List.not_mem_nil, or_false, not_or] at hr
  rw [State.getV_setResultAndFlag s hr.2, if_neg (Ne.symm hr.1)]

/-- A result and a flag change nothing outside the register file. -/
theorem State.onlyRegs_setResultAndFlag (s : State) (x : Reg) (b : Byte) (f : Bool) :
    OnlyRegs s (s.setResultAndFlag x b f) :=
  ⟨rfl, State.byteAt_setResultAndFlag s x b f⟩

/-- An instruction whose meaning is a result and a flag: what holds of the result holds of `V[x]` unless that is VF,
what holds of the flag holds of VF, and nothing else changes. -/
theorem writesResultAndFlag_of_exec {i : Instr} {s : State} {x : Reg} {b : Byte} {f : Bool} {P Q : Byte → Prop}
    (h : exec i s = .next (s.setResultAndFlag x b f)) (hb : P b) (hf : Q (flagByte f)) :
    ∃ t, exec i s = .next t ∧ (x ≠ 15 → P (t.getV x)) ∧ Q (t.getV 15) ∧ SameRegsBut [x, 15] s t ∧ OnlyRegs s t := by
  refine ⟨_, h, fun hx => ?result, ?flag, s.sameRegsBut_setResultAndFlag x b f, s.onlyRegs_setResultAndFlag x b f⟩
  case result => rwa [State.getV_setResultAndFlag s hx, if_pos rfl]
  case flag => rwa [State.getV_setResultAndFlag_vf]

/-- A flag that is decided by a comparison. -/
theorem flagByte_decide (p : Prop) [Decidable p] : flagByte (decide p) = if p then 1 else 0 := by
  simp [flagByte]

/-- Subtraction modulo 256 (R83, R85). -/
theorem byte_sub_toNat (a b : Byte) : (a - b).toNat = (a.toNat + 256 - b.toNat) % 256 := by
  have := b.isLt
  rw [BitVec.toNat_sub]
  omega

/-- Settles O24: an 8-bit sum is modulo 256, and the flag written is the carry. -/
theorem addRegistersGivesSumAndCarry : Obligations.AddRegistersGivesSumAndCarry := fun x y s =>
  writesResultAndFlag_of_exec (P := fun b => b.toNat = ((s.getV x).toNat + (s.getV y).toNat) % 256)
    (Q := fun b => b = if (s.getV x).toNat + (s.getV y).toNat > 255 then 1 else 0)
    (exec_addReg x y s) (BitVec.toNat_add _ _) (flagByte_decide _)

/-- Settles O25: an 8-bit difference is modulo 256, and the flag written is NOT borrow. -/
theorem subtractionsGiveDifferenceAndNotBorrow : Obligations.SubtractionsGiveDifferenceAndNotBorrow := fun x y s =>
  ⟨writesResultAndFlag_of_exec (P := fun b => b.toNat = ((s.getV x).toNat + 256 - (s.getV y).toNat) % 256)
      (Q := fun b => b = if (s.getV x).toNat ≥ (s.getV y).toNat then 1 else 0)
      (exec_subReg x y s) (byte_sub_toNat _ _) (flagByte_decide _),
    writesResultAndFlag_of_exec (P := fun b => b.toNat = ((s.getV y).toNat + 256 - (s.getV x).toNat) % 256)
      (Q := fun b => b = if (s.getV y).toNat ≥ (s.getV x).toNat then 1 else 0)
      (exec_subnReg x y s) (byte_sub_toNat _ _) (flagByte_decide _)⟩

theorem State.shiftOperand_eq {s : State} {x y : Reg} {src : Byte} (hx : s.quirks.shiftSrc = .vx → src = s.getV x)
    (hy : s.quirks.shiftSrc = .vy → src = s.getV y) : s.shiftOperand x y = src := by
  unfold State.shiftOperand
  split
  · exact (hx ‹_›).symm
  · exact (hy ‹_›).symm

theorem flagByte_toNat (f : Bool) : (flagByte f).toNat = f.toNat := by cases f <;> rfl

/-- The bit a right shift loses is the remainder modulo 2 (R84). -/
theorem outRight_toNat (a : Byte) : (outRight a).toNat = a.toNat % 2 := by
  rw [outRight, BitVec.getLsbD, Nat.toNat_testBit, pow_zero, Nat.div_one]

/-- The bit a left shift loses is the quotient by 128 (R86). -/
theorem outLeft_toNat (a : Byte) : (outLeft a).toNat = a.toNat / 128 := by
  have := a.isLt
  rw [outLeft, BitVec.getLsbD, Nat.toNat_testBit]
  omega

/-- Settles O26: the source is the register `SHIFT_SRC` names, shifting by one halves or doubles it, and the flag
written is its lowest or its highest bit. -/
theorem shiftsFollowShiftSource : Obligations.ShiftsFollowShiftSource := by
  intro x y s src hx hy
  have hsrc := State.shiftOperand_eq hx hy
  constructor
  · refine writesResultAndFlag_of_exec (P := fun b => b.toNat = src.toNat / 2) (Q := fun b => b.toNat = src.toNat % 2)
      (exec_shr x y s) ?_ ?_
    · rw [hsrc, BitVec.toNat_ushiftRight, Nat.shiftRight_one]
    · rw [hsrc, flagByte_toNat, outRight_toNat]
  · refine writesResultAndFlag_of_exec (P := fun b => b.toNat = src.toNat * 2 % 256)
      (Q := fun b => b.toNat = src.toNat / 128) (exec_shl x y s) ?_ ?_
    · rw [hsrc, BitVec.toNat_shiftLeft, Nat.shiftLeft_eq, pow_one]
    · rw [hsrc, flagByte_toNat, outLeft_toNat]

end Sys2Proof.Machine
end

section
/-! SUPPORT. The instructions that set the index register (R90 to R92). -/

namespace Sys2Proof.Machine

theorem exec_ldI (nnn : Addr12) (s : State) : exec (.ldI nnn) s = .next (s.setI (addrOf nnn)) := rfl

theorem exec_addI (x : Reg) (s : State) : exec (.addI x) s = .next (s.setI (s.i + (s.getV x).zeroExtend 16)) := rfl

theorem exec_ldF (x : Reg) (s : State) : exec (.ldF x) s = .next (s.setI (glyphAddr (s.getV x))) := rfl

/-- Setting `I` changes nothing else. -/
theorem State.onlyIndex_setI (s : State) (w : Word) : OnlyIndex s (s.setI w) := ⟨rfl, State.byteAt_setI s w⟩

/-- A 16-bit sum with a byte is modulo 65536 (R91). -/
theorem word_add_byte_toNat (w : Word) (b : Byte) : (w + b.zeroExtend 16).toNat = (w.toNat + b.toNat) % 65536 := by
  have := b.isLt
  rw [BitVec.toNat_add, BitVec.toNat_setWidth]
  omega

/-- Settles O28: each is a write of `I`, with the zero-extended address, the 16-bit sum and the glyph's address. -/
theorem indexInstructionsSetI : Obligations.IndexInstructionsSetI := fun nnn x s =>
  ⟨⟨_, exec_ldI nnn s, addrOf_toNat nnn, s.onlyIndex_setI _⟩,
    ⟨_, exec_addI x s, word_add_byte_toNat s.i (s.getV x), s.onlyIndex_setI _⟩,
    ⟨_, exec_ldF x s, glyphAddr_toNat (s.getV x), s.onlyIndex_setI _⟩⟩

end Sys2Proof.Machine
end

section
/-! SUPPORT. The instructions that move bytes between memory and the registers (R93 to R96). -/

namespace Sys2Proof.Machine

theorem exec_ldB (x : Reg) (s : State) : exec (.ldB x) s =
    .next (s.ifInRange 3 (s.storeBytes s.i.toNat (bcdDigits (s.getV x)))) := rfl

theorem exec_storeRegs (x : Reg) (s : State) : exec (.storeRegs x) s =
    .next (s.ifInRange (x.val + 1) ((s.storeBytes s.i.toNat (s.blockBytes x)).bumpI x)) := rfl

theorem exec_loadRegs (x : Reg) (s : State) : exec (.loadRegs x) s =
    .next (s.ifInRange (x.val + 1) ((s.loadBlock x).bumpI x)) := rfl

/-- An instruction that checks its range first has its effect where all its bytes lie in memory (R47). -/
theorem exec_of_inRange {i : Instr} {s t : State} {n : Nat} (h : exec i s = .next (s.ifInRange n t))
    (hn : n = 0 ∨ s.i.toNat + n ≤ 4096) : exec i s = .next t := by
  rw [h, State.ifInRange_of_le s t hn]

/-- An instruction that checks its range first enters the fault where a byte lies past the end (R47). -/
theorem faults_of_exec {i : Instr} {s t : State} {n : Nat} (h : exec i s = .next (s.ifInRange n t))
    (hn : 0 < n ∧ 4096 < s.i.toNat + n) : ∃ t, exec i s = .next t ∧ FaultEntered .addressOutOfRange s t :=
  ⟨_, by rw [h, State.ifInRange_of_gt s t hn], s.faultEntered_raise _⟩

/-- A run of stored bytes leaves every byte outside it alone. -/
theorem State.sameBytesOutside_storeBytes (s : State) (a : Nat) (bs : List Byte) :
    SameBytesOutside a bs.length s (s.storeBytes a bs) := fun _ => State.byteAt_storeBytes_outside s a bs

/-- The digits are smaller than a byte (R93). -/
theorem bcdDigits_toNat (b : Byte) :
    (bcdDigits b).map BitVec.toNat = [b.toNat / 100, b.toNat / 10 % 10, b.toNat % 10] := by
  have := b.isLt
  simp only [bcdDigits, List.map_cons, List.map_nil, BitVec.toNat_ofNat, List.cons.injEq, and_true]
  omega

/-- Settles O29: in range the three digits are stored from `I` up and nothing else, out of range the fault is
entered. -/
theorem storeDecimalWritesDigits : Obligations.StoreDecimalWritesDigits := by
  refine fun x s hmem => ⟨fun hin => ?stored, fun hout => faults_of_exec (exec_ldB x s) (by omega)⟩
  case stored =>
    have hread : ∀ k : Fin 3, ((s.storeBytes s.i.toNat (bcdDigits (s.getV x))).byteAt (s.i.toNat + k.val)).toNat =
        [(s.getV x).toNat / 100, (s.getV x).toNat / 10 % 10, (s.getV x).toNat % 10][k] := by
      intro k
      have hlen := length_bcdDigits (s.getV x)
      rw [State.byteAt_storeBytes_inside s hmem (by omega) (k := k.val) (by omega)]
      simp only [← bcdDigits_toNat, Fin.getElem_fin, List.getElem_map]
    exact ⟨_, exec_of_inRange (exec_ldB x s) (by omega), hread 0, hread 1, hread 2,
      s.sameBytesOutside_storeBytes s.i.toNat (bcdDigits (s.getV x)), rfl⟩

@[simp] theorem State.getV_bumpI (s : State) (x r : Reg) : (s.bumpI x).getV r = s.getV r :=
  State.getV_congr (State.bumpI_v s x) r

@[simp] theorem State.byteAt_bumpI (s : State) (x : Reg) (a : Nat) : (s.bumpI x).byteAt a = s.byteAt a :=
  State.byteAt_congr (State.bumpI_mem s x) a

theorem State.bumpI_eq (s : State) (x : Reg) : s.bumpI x = { s with i := (s.bumpI x).i } := by
  unfold State.bumpI
  split <;> rfl

theorem State.bumpI_i_of_off {s : State} {x : Reg} (h : s.quirks.memopIIncrement = false) : (s.bumpI x).i = s.i := by
  simp [h]

theorem State.bumpI_i_of_on {s : State} {x : Reg} (h : s.quirks.memopIIncrement = true) :
    (s.bumpI x).i.toNat = (s.i.toNat + x.val + 1) % 65536 := by
  rw [State.bumpI_i, if_pos h, BitVec.toNat_add, BitVec.toNat_ofNat]
  omega

/-- The block stored is read back register by register (R94). -/
theorem State.byteAt_storeBlock {s : State} {x k : Reg} (hmem : s.mem.wf = true) (hin : s.i.toNat + x.val < 4096)
    (hk : k.val ≤ x.val) : (s.storeBytes s.i.toNat (s.blockBytes x)).byteAt (s.i.toNat + k.val) = s.getV k := by
  have hlen := s.length_blockBytes x
  rw [State.byteAt_storeBytes_inside s hmem (by omega) (k := k.val) (by omega), State.getElem_blockBytes]

/-- Settles O30: in range the block is stored from `I` up and then `I` moves under the quirk, out of range the fault is
entered. -/
theorem storeBlockWritesRegisters : Obligations.StoreBlockWritesRegisters := by
  refine fun x s hmem => ⟨fun hin => ?stored, fun hout => faults_of_exec (exec_storeRegs x s) (by omega)⟩
  case stored =>
    refine ⟨_, exec_of_inRange (exec_storeRegs x s) (by omega), fun k hk => ?bytes, fun a ha => ?outside,
      State.bumpI_i_of_off (s := s.storeBytes _ _) (x := x), State.bumpI_i_of_on (s := s.storeBytes _ _) (x := x),
      ?frame⟩
    case bytes => rw [State.byteAt_bumpI, State.byteAt_storeBlock hmem hin hk]
    case outside =>
      rw [State.byteAt_bumpI]
      exact State.byteAt_storeBytes_outside s _ _ (by rwa [State.length_blockBytes])
    case frame =>
      rw [State.bumpI_mem]
      exact State.bumpI_eq _ x

@[simp] theorem State.loadBlock_i (s : State) (x : Reg) : (s.loadBlock x).i = s.i := by
  rw [State.loadBlock_eq]

@[simp] theorem State.loadBlock_mem (s : State) (x : Reg) : (s.loadBlock x).mem = s.mem := by
  rw [State.loadBlock_eq]

@[simp] theorem State.loadBlock_quirks (s : State) (x : Reg) : (s.loadBlock x).quirks = s.quirks := by
  rw [State.loadBlock_eq]

/-- A block load changes the register file and `I` only. -/
theorem State.loadBlock_bumpI_eq (s : State) (x : Reg) : (s.loadBlock x).bumpI x =
    { s with v := ((s.loadBlock x).bumpI x).v, i := ((s.loadBlock x).bumpI x).i } := by
  rw [State.bumpI_eq, State.loadBlock_eq]

/-- Settles O31: in range the block is loaded from `I` up and then `I` moves under the quirk, out of range the fault is
entered. -/
theorem loadBlockReadsMemory : Obligations.LoadBlockReadsMemory := by
  refine fun x s => ⟨fun hin => ?loaded, fun hout => faults_of_exec (exec_loadRegs x s) (by omega)⟩
  case loaded =>
    refine ⟨_, exec_of_inRange (exec_loadRegs x s) (by omega), fun k hk => ?low, fun k hk => ?high, fun hq => ?off,
      fun hq => ?on, s.loadBlock_bumpI_eq x, fun a => ?bytes⟩
    case low => rw [State.getV_bumpI, State.getV_loadBlock, if_pos hk]
    case high => rw [State.getV_bumpI, State.getV_loadBlock, if_neg (Nat.not_le.2 hk)]
    case off => rw [State.bumpI_i_of_off (by rwa [State.loadBlock_quirks]), State.loadBlock_i]
    case on => rw [State.bumpI_i_of_on (by rwa [State.loadBlock_quirks]), State.loadBlock_i]
    case bytes => rw [State.byteAt_bumpI, State.byteAt_congr (State.loadBlock_mem s x)]

/-- Settles O32: the load reads the bytes at the same addresses, and those are the registers that were stored. -/
theorem storedBlockLoadsBack : Obligations.StoredBlockLoadsBack := by
  intro x s t junk hmem hin ht
  obtain ⟨t', ht', hstored, -, -, -, htframe⟩ := (storeBlockWritesRegisters x s hmem).1 hin
  obtain rfl : t = t' := Host.Outcome.next.inj (ht.symm.trans ht')
  obtain ⟨u, hu, hloaded, -, -, -, huframe, -⟩ :=
    (loadBlockReadsMemory x { t with v := junk, i := s.i }).1 hin
  refine ⟨u, hu, fun k hk => (hloaded k hk).trans (hstored k hk), ?mode⟩
  case mode =>
    calc u.mode = t.mode := by rw [huframe]
      _ = s.mode := by rw [htframe]

/-- Settles O33: the store leaves `pc` alone, so the next fetch reads the two bytes stored. -/
theorem storeIsSeenByNextFetch : Obligations.StoreIsSeenByNextFetch := by
  intro s hmem hi hpc
  have hin : s.i.toNat + (1 : Reg).val < 4096 := hi ▸ hpc
  obtain ⟨t, ht, hstored, -, -, -, hframe⟩ := (storeBlockWritesRegisters 1 s hmem).1 hin
  have htpc : t.pc = s.i := by rw [hframe, hi]
  refine ⟨t, _, _, ht, State.fetch_of_fits (by rw [htpc]; exact hin), ?_⟩
  rw [State.wordAtPc_toNat, htpc]
  have h0 := hstored 0 (by decide)
  have h1 := hstored 1 (by decide)
  exact congrArg₂ (fun a b : Byte => a.toNat * 256 + b.toNat) h0 h1

end Sys2Proof.Machine
end

section
/-! SUPPORT. Everything a meaning can do to the state, said once over all 34 instructions: the relation `Effect`, that
`exec` always answers a state in it, and what each piece of state owes to it. -/

namespace Sys2Proof.Machine

theorem exec_drw (x y : Reg) (n : Rows) (s : State) : exec (.drw x y n) s =
    .next (s.ifInRange n.val ((s.setDisp (s.blit x y n.val).1).setFlag (s.blit x y n.val).2)) := rfl

/-- The instructions that skip on a condition (R67 to R70, R104, R105). -/
def Skips (i : Instr) : Prop :=
  (∃ x nn, i = .seImm x nn ∨ i = .sneImm x nn) ∨ (∃ x y, i = .seReg x y ∨ i = .sneReg x y) ∨
    ∃ x, i = .skp x ∨ i = .sknp x

/-- What an instruction can leave of the state `s` it runs on: one case for each way of changing it. -/
inductive Effect (s : State) : Instr → State → Prop where
  /-- One destination register is written and no flag. -/
  | setV {i : Instr} {x : Reg} (b : Byte) (hx : x ∈ destRegs i) (hi : writesFlag i = false) : Effect s i (s.setV x b)
  /-- A destination register and then VF are written. -/
  | setResultAndFlag {i : Instr} {x : Reg} (b : Byte) (f : Bool) (hx : x ∈ destRegs i) (hi : writesFlag i = true) :
      Effect s i (s.setResultAndFlag x b f)
  /-- A condition decides whether `pc` moves by 2. -/
  | skip {i : Instr} {w : Word} (hi : Skips i) (hw : w = s.pc ∨ w = s.pc + 2) : Effect s i (s.jumpTo w)
  /-- A jump, to no further than 0xFFF + 0xFF. -/
  | jump {i : Instr} (nnn : Addr12) {w : Word} (hi : i = .jp nnn ∨ i = .jpV0 nnn) (hw : w.toNat ≤ 0x10FE) :
      Effect s i (s.jumpTo w)
  /-- A return takes a held address. -/
  | ret {k : Fin 16} (hk : s.sp.val = k.val + 1) : Effect s .ret (s.returned k)
  /-- A return finds none. -/
  | underflow : Effect s .ret (s.raise .stackUnderflow)
  /-- A call fills a free slot. -/
  | call {k : Fin 16} (nnn : Addr12) (hk : s.sp.val = k.val) : Effect s (.call nnn) (s.called k nnn)
  /-- A call finds none. -/
  | overflow (nnn : Addr12) : Effect s (.call nnn) (s.raise .stackOverflow)
  /-- The index register is set. -/
  | setI {i : Instr} (w : Word) (hi : (∃ n, i = .ldI n) ∨ (∃ x, i = .addI x) ∨ ∃ x, i = .ldF x) : Effect s i (s.setI w)
  /-- The delay timer is set. -/
  | setDT (x : Reg) : Effect s (.ldDTVx x) (s.setDT (s.getV x))
  /-- The sound timer is set. -/
  | setST (x : Reg) : Effect s (.ldSTVx x) (s.setST (s.getV x))
  /-- A key wait begins. -/
  | wait (x : Reg) : Effect s (.ldVxK x) (s.setMode (.waitingForKey x))
  /-- The generator advances and a register is written. -/
  | random (x : Reg) (nn b : Byte) : Effect s (.rnd x nn) (s.draw.2.setV x b)
  /-- The display is cleared. -/
  | clear : Effect s .cls (s.setDisp Display.clear)
  /-- A sprite is drawn and VF is written. -/
  | draw (x y : Reg) (n : Rows) (d : Display) (f : Bool) : Effect s (.drw x y n) ((s.setDisp d).setFlag f)
  /-- The decimal digits are stored, in range. -/
  | storeDecimal (x : Reg) (h : s.i.toNat + 3 ≤ 4096) :
      Effect s (.ldB x) (s.storeBytes s.i.toNat (bcdDigits (s.getV x)))
  /-- A register block is stored, in range, and `I` moves only under the quirk. -/
  | storeBlock (x : Reg) {w : Word} (h : s.i.toNat + (x.val + 1) ≤ 4096)
      (hw : w = s.i ∨ s.quirks.memopIIncrement = true) :
      Effect s (.storeRegs x) ((s.storeBytes s.i.toNat (s.blockBytes x)).setI w)
  /-- The registers of a block are loaded, and `I` moves only under the quirk. -/
  | loadBlock (x : Reg) {v : Vector Byte 16} {w : Word} (hv : ∀ r : Reg, r ∉ destRegs (.loadRegs x) → v[r] = s.getV r)
      (hw : w = s.i ∨ s.quirks.memopIIncrement = true) : Effect s (.loadRegs x) { s with v := v, i := w }
  /-- The bytes of the instruction do not all lie in memory. -/
  | outOfRange {i : Instr} : Effect s i (s.raise .addressOutOfRange)

/-- The range check before an effect leaves the effect, of bytes that lie in memory, or the range fault (R47). -/
theorem Effect.of_ifInRange {i : Instr} {s t : State} {n : Nat} (h : n = 0 ∨ s.i.toNat + n ≤ 4096 → Effect s i t) :
    Effect s i (s.ifInRange n t) := by
  rcases s.ifInRange_cases n t with ⟨hin, heq⟩ | ⟨-, heq⟩
  · rw [heq]
    exact h ((inRange_iff _ _).1 hin)
  · rw [heq]
    exact .outOfRange

theorem addrOf_le (nnn : Addr12) : (addrOf nnn).toNat ≤ 0x10FE := by
  have := nnn.isLt
  rw [addrOf_toNat]
  omega

theorem State.indexedTarget_le (s : State) (nnn : Addr12) : (s.indexedTarget nnn).toNat ≤ 0x10FE := by
  have := nnn.isLt
  have := (s.getV 0).isLt
  rw [State.indexedTarget_toNat]
  omega

/-- A conditional skip is a jump to the next instruction or past it. -/
theorem Effect.of_skipIf {i : Instr} {s : State} (c : Bool) (hi : Skips i) : Effect s i (s.skipIf c) := by
  cases c with
  | false => exact .skip hi (.inl rfl)
  | true => exact .skip hi (.inr rfl)

/-- `I` moves after a block transfer only under the quirk (R94, R95). -/
theorem State.bumpI_i_cases (s : State) (x : Reg) : (s.bumpI x).i = s.i ∨ s.quirks.memopIIncrement = true := by
  cases hq : s.quirks.memopIIncrement with
  | false => exact .inl (State.bumpI_i_of_off hq)
  | true => exact .inr rfl

theorem Effect.of_storeBlock {s : State} {x : Reg} (h : s.i.toNat + (x.val + 1) ≤ 4096) :
    Effect s (.storeRegs x) ((s.storeBytes s.i.toNat (s.blockBytes x)).bumpI x) := by
  rw [State.bumpI_eq]
  exact .storeBlock x h (State.bumpI_i_cases (s.storeBytes _ _) x)

theorem Effect.of_loadBlock (s : State) (x : Reg) : Effect s (.loadRegs x) ((s.loadBlock x).bumpI x) := by
  have hi := (s.loadBlock x).bumpI_i_cases x
  rw [State.loadBlock_i, State.loadBlock_quirks] at hi
  rw [State.loadBlock_bumpI_eq]
  refine .loadBlock x (fun r hr => ?_) hi
  calc ((s.loadBlock x).bumpI x).getV r
      = (s.loadBlock x).getV r := State.getV_bumpI _ x r
    _ = s.getV r := by rw [State.getV_loadBlock, if_neg (fun hle => hr ((mem_blockRegs x r).2 hle))]

/-- A RET answers a state, by the addresses held (O14). -/
theorem exec_ret_effect (s : State) : ∃ t, exec .ret s = .next t ∧ Effect s .ret t := by
  obtain h | ⟨k, hk⟩ := Fin.eq_zero_or_eq_succ s.sp
  · exact ⟨_, exec_ret_of_none h, .underflow⟩
  · exact ⟨_, exec_ret_of_held (congrArg Fin.val hk), .ret (congrArg Fin.val hk)⟩

/-- A CALL answers a state, by the addresses held (O15). -/
theorem exec_call_effect (nnn : Addr12) (s : State) : ∃ t, exec (.call nnn) s = .next t ∧ Effect s (.call nnn) t := by
  obtain ⟨k, hk⟩ | h := Fin.eq_castSucc_or_eq_last s.sp
  · exact ⟨_, exec_call_of_room (congrArg Fin.val hk) nnn, .call nnn (congrArg Fin.val hk)⟩
  · exact ⟨_, exec_call_of_full h nnn, .overflow nnn⟩

/-- Every meaning answers a next state, and one of the cases of `Effect` says which (R62). -/
theorem exec_effect (i : Instr) (s : State) : ∃ t, exec i s = .next t ∧ Effect s i t := by
  cases i with
  | cls => exact ⟨_, exec_cls s, .clear⟩
  | ret => exact exec_ret_effect s
  | jp nnn => exact ⟨_, exec_jp nnn s, .jump nnn (.inl rfl) (addrOf_le nnn)⟩
  | call nnn => exact exec_call_effect nnn s
  | seImm x nn => exact ⟨_, exec_seImm x nn s, .of_skipIf _ (.inl ⟨x, nn, .inl rfl⟩)⟩
  | sneImm x nn => exact ⟨_, exec_sneImm x nn s, .of_skipIf _ (.inl ⟨x, nn, .inr rfl⟩)⟩
  | seReg x y => exact ⟨_, exec_seReg x y s, .of_skipIf _ (.inr (.inl ⟨x, y, .inl rfl⟩))⟩
  | ldImm x nn => exact ⟨_, exec_ldImm x nn s, .setV _ (.head _) rfl⟩
  | addImm x nn => exact ⟨_, exec_addImm x nn s, .setV _ (.head _) rfl⟩
  | ldReg x y => exact ⟨_, exec_ldReg x y s, .setV _ (.head _) rfl⟩
  | orReg x y => exact ⟨_, exec_orReg x y s, .setV _ (.head _) rfl⟩
  | andReg x y => exact ⟨_, exec_andReg x y s, .setV _ (.head _) rfl⟩
  | xorReg x y => exact ⟨_, exec_xorReg x y s, .setV _ (.head _) rfl⟩
  | addReg x y => exact ⟨_, exec_addReg x y s, .setResultAndFlag _ _ (.head _) rfl⟩
  | subReg x y => exact ⟨_, exec_subReg x y s, .setResultAndFlag _ _ (.head _) rfl⟩
  | shr x y => exact ⟨_, exec_shr x y s, .setResultAndFlag _ _ (.head _) rfl⟩
  | subnReg x y => exact ⟨_, exec_subnReg x y s, .setResultAndFlag _ _ (.head _) rfl⟩
  | shl x y => exact ⟨_, exec_shl x y s, .setResultAndFlag _ _ (.head _) rfl⟩
  | sneReg x y => exact ⟨_, exec_sneReg x y s, .of_skipIf _ (.inr (.inl ⟨x, y, .inr rfl⟩))⟩
  | ldI nnn => exact ⟨_, exec_ldI nnn s, .setI _ (.inl ⟨nnn, rfl⟩)⟩
  | jpV0 nnn => exact ⟨_, exec_jpV0 nnn s, .jump nnn (.inr rfl) (s.indexedTarget_le nnn)⟩
  | rnd x nn => exact ⟨_, exec_rnd x nn s, .random x nn _⟩
  | drw x y n => exact ⟨_, exec_drw x y n s, .of_ifInRange fun _ => .draw x y n _ _⟩
  | skp x => exact ⟨_, exec_skp x s, .of_skipIf _ (.inr (.inr ⟨x, .inl rfl⟩))⟩
  | sknp x => exact ⟨_, exec_sknp x s, .of_skipIf _ (.inr (.inr ⟨x, .inr rfl⟩))⟩
  | ldVxDT x => exact ⟨_, exec_ldVxDT x s, .setV _ (.head _) rfl⟩
  | ldVxK x => exact ⟨_, exec_ldVxK x s, .wait x⟩
  | ldDTVx x => exact ⟨_, exec_ldDTVx x s, .setDT x⟩
  | ldSTVx x => exact ⟨_, exec_ldSTVx x s, .setST x⟩
  | addI x => exact ⟨_, exec_addI x s, .setI _ (.inr (.inl ⟨x, rfl⟩))⟩
  | ldF x => exact ⟨_, exec_ldF x s, .setI _ (.inr (.inr ⟨x, rfl⟩))⟩
  | ldB x => exact ⟨_, exec_ldB x s, .of_ifInRange fun h => .storeDecimal x (by omega)⟩
  | storeRegs x => exact ⟨_, exec_storeRegs x s, .of_ifInRange fun h => .of_storeBlock (by omega)⟩
  | loadRegs x => exact ⟨_, exec_loadRegs x s, .of_ifInRange fun _ => .of_loadBlock s x⟩

/-- The effect of a meaning that answered `t`. -/
theorem effect_of_exec {i : Instr} {s t : State} (h : exec i s = .next t) : Effect s i t := by
  obtain ⟨t', ht', heff⟩ := exec_effect i s
  obtain rfl : t = t' := Host.Outcome.next.inj (h.symm.trans ht')
  exact heff

/-- Settles O12: outside `Running` a STEP is the identity, a failed fetch or decode is a fault entered, and every
meaning answers a next state. -/
theorem stepAlwaysAnswersNext : Obligations.StepAlwaysAnswersNext := by
  intro s
  by_cases hm : s.mode = .running
  case neg => exact ⟨s, step_of_not_running hm⟩
  case pos =>
    rcases Nat.lt_or_ge (s.pc.toNat + 1) 4096 with hp | hp
    · cases hd : decodeWord s.wordAtPc with
      | error e => exact ⟨_, step_of_rejected hm hp hd⟩
      | ok i =>
        obtain ⟨t, ht, -⟩ := exec_effect i s.advance
        exact ⟨t, (step_of_decoded hm hp hd).trans ht⟩
    · exact ⟨_, step_of_fetch_fault hm hp⟩

variable {s t : State} {i : Instr}

/-- The effects that move `I` (R12). -/
theorem Effect.index (h : Effect s i t) : t.i = s.i ∨ (∃ n, i = .ldI n) ∨ (∃ x, i = .addI x) ∨ (∃ x, i = .ldF x) ∨
    (s.quirks.memopIIncrement = true ∧ ∃ x, i = .storeRegs x ∨ i = .loadRegs x) := by
  cases h with
  | setI w hi => exact .inr (hi.imp_right (Or.imp_right .inl))
  | storeBlock x _ hw => exact hw.imp_right fun hq => .inr (.inr (.inr ⟨hq, x, .inl rfl⟩))
  | loadBlock x _ hw => exact hw.imp_right fun hq => .inr (.inr (.inr ⟨hq, x, .inr rfl⟩))
  | _ => exact .inl rfl

/-- The effects that move `pc` (R13, R61). -/
theorem Effect.pc (h : Effect s i t) :
    t.pc = s.pc ∨ i = .ret ∨ (∃ n, i = .jp n ∨ i = .call n ∨ i = .jpV0 n) ∨ Skips i := by
  cases h with
  | skip hi => exact .inr (.inr (.inr hi))
  | jump nnn hi => exact .inr (.inr (.inl ⟨nnn, hi.imp_right .inr⟩))
  | ret => exact .inr (.inl rfl)
  | call nnn => exact .inr (.inr (.inl ⟨nnn, .inr (.inl rfl)⟩))
  | _ => exact .inl rfl

/-- The effects that change the run state, which change nothing else (R19, R106, R121). -/
theorem Effect.mode (h : Effect s i t) : t.mode = s.mode ∨
    (∃ x, i = .ldVxK x ∧ t = { s with mode := .waitingForKey x }) ∨ ∃ r, FaultEntered r s t := by
  cases h with
  | wait x => exact .inr (.inl ⟨x, rfl, rfl⟩)
  | underflow | overflow | outOfRange => exact .inr (.inr ⟨_, s.faultEntered_raise _⟩)
  | _ => exact .inl rfl

/-- The effects that write the stack (R14, R65). -/
theorem Effect.stack (h : Effect s i t) : t.stack = s.stack ∨ ∃ n, i = .call n := by
  cases h with
  | call nnn => exact .inr ⟨nnn, rfl⟩
  | _ => exact .inl rfl

/-- The effects that move SP (R14, R63, R65). -/
theorem Effect.sp (h : Effect s i t) : t.sp = s.sp ∨ (∃ n, i = .call n) ∨ i = .ret := by
  cases h with
  | call nnn => exact .inr (.inl ⟨nnn, rfl⟩)
  | ret => exact .inr (.inr rfl)
  | _ => exact .inl rfl

/-- The effect that sets DT (R15, R102). -/
theorem Effect.dt (h : Effect s i t) : t.dt = s.dt ∨ ∃ x, i = .ldDTVx x := by
  cases h with
  | setDT x => exact .inr ⟨x, rfl⟩
  | _ => exact .inl rfl

/-- The effect that sets ST (R16, R103). -/
theorem Effect.st (h : Effect s i t) : t.st = s.st ∨ ∃ x, i = .ldSTVx x := by
  cases h with
  | setST x => exact .inr ⟨x, rfl⟩
  | _ => exact .inl rfl

/-- The effects that write the display (R17, R110). -/
theorem Effect.disp (h : Effect s i t) : t.disp = s.disp ∨ i = .cls ∨ ∃ x y n, i = .drw x y n := by
  cases h with
  | clear => exact .inr (.inl rfl)
  | draw x y n => exact .inr (.inr ⟨x, y, n, rfl⟩)
  | _ => exact .inl rfl

/-- The effect that advances the generator (R20, R100). -/
theorem Effect.rng (h : Effect s i t) :
    t.rng = s.rng ∨ ∃ x nn, i = .rnd x nn ∧ t.rng = (Config.rngNext s.rng).2 := by
  cases h with
  | random x nn => exact .inr ⟨x, nn, rfl, rfl⟩
  | _ => exact .inl rfl

/-- The effects that write memory (R21, R34). -/
theorem Effect.mem (h : Effect s i t) : t.mem = s.mem ∨ ∃ x, i = .ldB x ∨ i = .storeRegs x := by
  cases h with
  | storeDecimal x => exact .inr ⟨x, .inl rfl⟩
  | storeBlock x => exact .inr ⟨x, .inr rfl⟩
  | _ => exact .inl rfl

/-- No effect writes the keys (R18). -/
theorem Effect.keys (h : Effect s i t) : t.keys = s.keys := by
  cases h with
  | _ => rfl

/-- No effect writes the quirks (log entry 3). -/
theorem Effect.quirks (h : Effect s i t) : t.quirks = s.quirks := by
  cases h with
  | _ => rfl

/-- Settles O49: each piece of state is what it was in every case of `Effect` but those of its writers. -/
theorem stateChangesOnlyByItsInstructions : Obligations.StateChangesOnlyByItsInstructions := by
  intro i s t h
  have heff := effect_of_exec h
  refine ⟨heff.index.resolve_left, heff.pc.resolve_left, heff.mode.resolve_left, heff.stack.resolve_left,
    heff.sp.resolve_left, heff.dt.resolve_left, heff.st.resolve_left, heff.disp.resolve_left, heff.rng, ?bytes,
    heff.keys, heff.quirks⟩
  case bytes =>
    rintro ⟨a, ha⟩
    exact heff.mem.resolve_left fun hmem => ha (State.byteAt_congr hmem a)

/-- The effects on a register that is no destination, and not the flag of a flag writer (R10, R11). -/
theorem Effect.getV (h : Effect s i t) {r : Reg} (hr : r ∉ destRegs i) (hvf : writesFlag i = true → r ≠ 15) :
    t.getV r = s.getV r := by
  have ne_of_dest : ∀ {x : Reg}, x ∈ destRegs i → x ≠ r := fun hx hxr => hr (hxr ▸ hx)
  cases h with
  | setV b hx => exact State.getV_setV_other s (ne_of_dest hx) b
  | setResultAndFlag b f hx hi => rw [State.getV_setResultAndFlag s (hvf hi), if_neg (ne_of_dest hx)]
  | random x nn b => exact State.getV_setV_other s.draw.2 (ne_of_dest (.head _)) b
  | draw x y n d f => exact State.getV_setV_other (s.setDisp d) (Ne.symm (hvf rfl)) (flagByte f)
  | loadBlock x hv => exact hv r hr
  | _ => rfl

/-- A skip writes no flag. -/
theorem Skips.writesFlag (h : Skips i) : writesFlag i = false := by
  rcases h with ⟨_, _, rfl | rfl⟩ | ⟨_, _, rfl | rfl⟩ | ⟨_, rfl | rfl⟩ <;> rfl

/-- The effects of a flag writer leave a flag in VF or are the range fault (R11, R47). -/
theorem Effect.flag (h : Effect s i t) (hi : writesFlag i = true) :
    t.getV 15 = 0 ∨ t.getV 15 = 1 ∨ FaultEntered .addressOutOfRange s t := by
  cases h with
  | setResultAndFlag b f =>
    rw [State.getV_setResultAndFlag_vf]
    exact (flagByte_cases f).imp_right .inl
  | draw x y n d f =>
    rw [State.setFlag, State.getV_setV_same]
    exact (flagByte_cases f).imp_right .inl
  | outOfRange => exact .inr (.inr (s.faultEntered_raise _))
  | setV b hx hno => exact absurd (hno.symm.trans hi) Bool.false_ne_true
  | skip hskip => exact absurd (hskip.writesFlag.symm.trans hi) Bool.false_ne_true
  | jump nnn hjump => rcases hjump with rfl | rfl <;> exact absurd hi Bool.false_ne_true
  | setI w hset => rcases hset with ⟨_, rfl⟩ | ⟨_, rfl⟩ | ⟨_, rfl⟩ <;> exact absurd hi Bool.false_ne_true
  | _ => exact absurd hi Bool.false_ne_true

/-- Settles O27: a register changes in those cases of `Effect` alone that write a destination or a flag. -/
theorem registersChangeOnlyAsNamed : Obligations.RegistersChangeOnlyAsNamed := by
  intro i s t h
  have heff := effect_of_exec h
  exact ⟨fun r => heff.getV, heff.flag⟩

end Sys2Proof.Machine
end

section
/-! SUPPORT. What a STEP does to the timers, the keys and the run state, from the effects of the meanings (R60). -/

namespace Sys2Proof.Machine

/-- Settles O11: every case of a STEP leaves the keys alone, and the timers but for the two timer loads. -/
theorem stepLeavesTimersAndKeys : Obligations.StepLeavesTimersAndKeys := by
  intro s t h
  rcases step_cases h with ⟨-, rfl⟩ | ⟨-, -, rfl⟩ | ⟨-, -, -, rfl⟩ | ⟨-, -, i, hd, hexec⟩
  · exact ⟨rfl, fun hdt => absurd rfl hdt, fun hst => absurd rfl hst⟩
  · exact ⟨rfl, fun hdt => absurd rfl hdt, fun hst => absurd rfl hst⟩
  · exact ⟨rfl, fun hdt => absurd rfl hdt, fun hst => absurd rfl hst⟩
  · have heff := effect_of_exec hexec
    refine ⟨heff.keys, fun hdt => ?_, fun hst => ?_⟩
    · obtain ⟨x, rfl⟩ := heff.dt.resolve_left hdt
      exact ⟨x, hd⟩
    · obtain ⟨x, rfl⟩ := heff.st.resolve_left hst
      exact ⟨x, hd⟩

/-- Settles O48: a machine that does not run keeps its run state, a running one leaves `Running` by a fault or by the
instruction that begins a wait. -/
theorem stepChangesModeAsTabled : Obligations.StepChangesModeAsTabled := by
  intro s t h
  rcases step_cases h with ⟨-, rfl⟩ | ⟨hm, -, rfl⟩ | ⟨hm, -, -, rfl⟩ | ⟨hm, -, i, hd, hexec⟩
  · exact ⟨fun r => .inl, fun r => .inl⟩
  · exact ⟨fun r hr => (nomatch hr), fun r _ => .inr ⟨hm, rfl, .inl rfl⟩⟩
  · exact ⟨fun r hr => (nomatch hr), fun r _ => .inr ⟨hm, rfl, .inr rfl⟩⟩
  · rcases (effect_of_exec hexec).mode with hsame | ⟨x, rfl, rfl⟩ | ⟨r', rfl, -⟩
    · have hrun : t.mode = .running := hsame.trans hm
      exact ⟨fun r hr => (nomatch hrun.symm.trans hr), fun r hr => (nomatch hrun.symm.trans hr)⟩
    · refine ⟨fun r hr => .inr ⟨hm, ?_⟩, fun r hr => (nomatch hr)⟩
      cases hr
      exact hd
    · exact ⟨fun r hr => (nomatch hr), fun r _ => .inr ⟨hm, rfl, .inr rfl⟩⟩

end Sys2Proof.Machine
end

section
/-! SUPPORT. Predicates that every STEP or every event keeps, packaged once: they hold after every RUN's STEPs and after
every schedule of events (R131, R133). -/

namespace Sys2Proof.Machine

/-- The STEPs of a RUN keep what a STEP keeps, and answer a next state. -/
theorem runSteps_keeps {P : State → Prop} (hstep : ∀ s t, P s → step s = .next t → P t) (k : Nat) :
    ∀ {s : State}, P s → ∃ t, runSteps k s = .next t ∧ P t := by
  induction k with
  | zero => exact fun {s} h => ⟨s, rfl, h⟩
  | succ k ih =>
    intro s h
    by_cases hm : s.mode = .running
    · obtain ⟨t, ht⟩ := stepAlwaysAnswersNext s
      rw [runSteps_succ_running hm ht]
      exact ih (hstep s t h ht)
    · exact ⟨s, runSteps_idle hm, h⟩

theorem run_of_halted {s : State} {r : FaultReason} (h : s.mode = .halted r) (m : BitVec 32) : run m s = .next s := by
  simp only [run, h]

/-- A RUN of a machine that is not halted is its STEPs and then a TICK (R131). -/
theorem run_of_runSteps {s t : State} {m : BitVec 32} (hs : ¬s.IsHalted) (ht : runSteps m.toNat s = .next t) :
    run m s = .next (tick t) := by
  cases hm : s.mode with
  | running => simp only [run, hm, ht, thenTick]
  | waitingForKey r => simp only [run, hm, ht, thenTick]
  | halted r => exact absurd ⟨r, hm⟩ hs

/-- A RUN keeps what a STEP and a TICK keep, and answers a next state. -/
theorem run_keeps {P : State → Prop} (hstep : ∀ s t, P s → step s = .next t → P t) (htick : ∀ s, P s → P (tick s))
    {s : State} (h : P s) (m : BitVec 32) : ∃ t, run m s = .next t ∧ P t := by
  by_cases hs : s.IsHalted
  · obtain ⟨r, hr⟩ := hs
    exact ⟨s, run_of_halted hr m, h⟩
  · obtain ⟨t, ht, hP⟩ := runSteps_keeps hstep m.toNat h
    exact ⟨tick t, run_of_runSteps hs ht, htick t hP⟩

/-- A schedule keeps what each of its events keeps, and answers a next state. -/
theorem events_keeps {P : State → Prop} (es : List Event)
    (hes : ∀ e ∈ es, ∀ s, P s → ∃ t, event e s = .next t ∧ P t) :
    ∀ {s : State}, P s → ∃ t, events es s = .next t ∧ P t := by
  induction es with
  | nil => exact fun {s} h => ⟨s, rfl, h⟩
  | cons e es ih =>
    intro s h
    obtain ⟨t, ht, hP⟩ := hes e (.head _) s h
    rw [events_cons ht]
    exact ih (fun e' he' => hes e' (.tail _ he')) hP

/-- A schedule of events that each leave a state as it is leaves it as it is. -/
theorem events_fixed {es : List Event} {s : State} (hes : ∀ e ∈ es, event e s = .next s) : events es s = .next s := by
  obtain ⟨t, ht, hts⟩ := events_keeps (P := (· = s)) es (fun e he u hu => ⟨u, hu ▸ hes e he, hu⟩) rfl
  rwa [hts] at ht

end Sys2Proof.Machine
end

section
/-! SUPPORT. The invariant of R25: every effect, STEP and event keeps it. -/

namespace Sys2Proof.Machine

/-- The invariant speaks of memory, `pc`, the stack and SP alone. -/
theorem State.Inv.congr {s t : State} (h : s.Inv) (hmem : t.mem = s.mem) (hpc : t.pc = s.pc)
    (hstack : t.stack = s.stack) (hsp : t.sp = s.sp) : t.Inv := by
  simpa only [State.Inv, State.PcBounded, State.StackBounded, hmem, hpc, hstack, hsp] using h

/-- Jumping to a bounded place keeps the invariant. -/
theorem State.Inv.jumpTo {s : State} (h : s.Inv) {w : Word} (hw : w.toNat ≤ 0x10FE) : (s.jumpTo w).Inv := by
  obtain ⟨hmem, -, hstack⟩ := h
  exact ⟨hmem, hw, hstack⟩

/-- A return goes to a live return address and keeps the others. -/
theorem State.Inv.returned {s : State} (h : s.Inv) {k : Fin 16} (hk : s.sp.val = k.val + 1) : (s.returned k).Inv := by
  obtain ⟨hmem, -, hstack⟩ := h
  refine ⟨hmem, ?pc, fun j hj => hstack j ?live⟩
  case pc =>
    have hpc : s.stack[k].toNat ≤ 0x1000 := (hstack k (by omega)).2
    exact hpc.trans (by decide)
  case live =>
    have hjk : j.val < k.val := hj
    omega

/-- A call of a bounded `pc` adds it to the live return addresses. -/
theorem State.Inv.called {s : State} (h : s.Inv) (hpc : 2 ≤ s.pc.toNat ∧ s.pc.toNat ≤ 0x1000) {k : Fin 16}
    (hk : s.sp.val = k.val) (nnn : Addr12) : (s.called k nnn).Inv := by
  obtain ⟨hmem, -, hstack⟩ := h
  refine ⟨hmem, addrOf_le nnn, fun j hj => ?live⟩
  case live =>
    by_cases hjk : j = k
    · subst hjk
      rwa [State.stack_called_same]
    · have hlt : j.val < k.val + 1 := hj
      have hne : j.val ≠ k.val := fun h => hjk (Fin.ext h)
      rw [State.stack_called_other s hjk]
      exact hstack j (by omega)

/-- A store of bytes that lie in memory keeps the invariant. -/
theorem State.Inv.storeBytes {s : State} (h : s.Inv) {a : Nat} {bs : List Byte} (ha : a + bs.length ≤ 4096) :
    (s.storeBytes a bs).Inv := by
  obtain ⟨hmem, hpc, hstack⟩ := h
  exact ⟨State.wf_storeBytes s hmem ha, hpc, hstack⟩

/-- Every effect keeps the invariant, on a state whose `pc` a fetch has just advanced. -/
theorem Effect.keeps_inv {s t : State} {i : Instr} (heff : Effect s i t) (h : s.Inv)
    (hpc : 2 ≤ s.pc.toNat ∧ s.pc.toNat ≤ 0x1000) : t.Inv := by
  cases heff with
  | jump nnn hi hw => exact h.jumpTo hw
  | skip hi hw =>
    rcases hw with rfl | rfl
    · exact h.jumpTo (by omega)
    · have h2 : (2 : Word).toNat = 2 := rfl
      exact h.jumpTo (by rw [BitVec.toNat_add, h2]; omega)
  | ret hk => exact h.returned hk
  | call nnn hk => exact h.called hpc hk nnn
  | storeDecimal x hin => exact h.storeBytes hin
  | storeBlock x hin =>
    have hstore := h.storeBytes (bs := s.blockBytes x) (by rwa [State.length_blockBytes])
    exact hstore.congr rfl rfl rfl rfl
  | _ => exact h.congr rfl rfl rfl rfl

/-- Settles O57: an effect keeps the invariant on the state after the fetch, whose `pc` lies in 2 .. 0x1000; the other
cases of a STEP change the run state and `pc` alone. -/
theorem stepKeepsInvariant : Obligations.StepKeepsInvariant := by
  intro s t h hstep
  rcases step_cases hstep with ⟨-, rfl⟩ | ⟨-, -, rfl⟩ | ⟨-, hp, -, rfl⟩ | ⟨-, hp, i, -, hexec⟩
  · exact h
  · exact h.congr rfl rfl rfl rfl
  · have hadv := State.advance_pc_toNat hp
    have hinv : s.advance.Inv := h.jumpTo (by rw [← State.advance_pc]; omega)
    exact hinv.congr rfl rfl rfl rfl
  · have hadv := State.advance_pc_toNat hp
    have hinv : s.advance.Inv := h.jumpTo (by rw [← State.advance_pc]; omega)
    exact (effect_of_exec hexec).keeps_inv hinv (by omega)

/-- A TICK writes the two timers alone (R127). -/
theorem tick_eq (s : State) : tick s = { s with dt := (tick s).dt, st := (tick s).st } := by
  unfold tick
  split <;> rfl

/-- KEY writes the keys, a register and the run state alone (R129). -/
theorem key_eq (c : Key) (p : Bool) (s : State) :
    key c p s = { s with keys := (key c p s).keys, v := (key c p s).v, mode := (key c p s).mode } := by
  unfold key State.endWait
  split
  · split <;> rfl
  · rfl

theorem State.Inv.tick {s : State} (h : s.Inv) : (tick s).Inv := by
  rw [tick_eq]
  exact h.congr rfl rfl rfl rfl

theorem State.Inv.key {s : State} (h : s.Inv) (c : Key) (p : Bool) : (key c p s).Inv := by
  rw [key_eq]
  exact h.congr rfl rfl rfl rfl

/-- Settles O58: STEP keeps the invariant (O57), TICK and KEY do not touch what it speaks of, a RUN is STEPs and a TICK,
and a schedule keeps what its events keep. -/
theorem eventsKeepInvariant : Obligations.EventsKeepInvariant := by
  refine fun es s h => events_keeps es (fun e _ s hs => ?_) h
  cases e with
  | step =>
    obtain ⟨t, ht⟩ := stepAlwaysAnswersNext s
    exact ⟨t, ht, stepKeepsInvariant s t hs ht⟩
  | tick => exact ⟨_, rfl, hs.tick⟩
  | key c p => exact ⟨_, rfl, hs.key c p⟩
  | run m => exact run_keeps stepKeepsInvariant (fun _ => State.Inv.tick) hs m

/-- A machine with nothing on the stack and `pc` at 0x200 meets the invariant when its memory is canonical. -/
theorem State.Inv.of_reset {s : State} (hmem : s.mem.wf = true) (hpc : s.pc = 0x200) (hsp : s.sp = 0) : s.Inv := by
  refine ⟨hmem, ?_, fun k hk => ?_⟩
  · rw [State.PcBounded, hpc]
    decide
  · rw [hsp] at hk
    exact absurd hk (Nat.not_lt_zero _)

/-- Settles O55: the memory of reset is the empty list, its `pc` 0x200 and its SP 0. -/
theorem invariantHoldsAtReset : Obligations.InvariantHoldsAtReset := State.Inv.of_reset rfl rfl rfl

/-- The font and a ROM that fits leave the memory canonical (R140). -/
theorem wf_loadedMem {font rom : List Byte} (hfont : font.length ≤ 80) (hrom : rom.length ≤ 3584) :
    (loadedMem font rom).wf = true :=
  Mem.wf_writeAll rom (Mem.wf_writeAll font rfl (by simp only [Config.fontBase]; omega))
    (by simp only [Config.loadAddr]; omega)

/-- LOAD builds a machine only from a ROM that fits, and then the one `load_of_fits` names. -/
theorem load_ok {p : Params} {rom : List Byte} {s : State} (h : load p rom = .ok s) : rom.length ≤ 3584 ∧
    s = { State.reset with quirks := p.quirks, rng := p.rngSeed, mem := loadedMem p.font.toList rom } := by
  rcases Nat.lt_or_ge 3584 rom.length with hbig | hfits
  · rw [load_of_oversize p hbig] at h
    cases h
  · rw [load_of_fits p hfits] at h
    cases h
    exact ⟨hfits, rfl⟩

/-- Settles O56: LOAD leaves `pc` and SP as reset does, and builds its memory by two stores in range. -/
theorem invariantHoldsAfterLoad : Obligations.InvariantHoldsAfterLoad := by
  intro p rom s h
  obtain ⟨hfits, rfl⟩ := load_ok h
  exact State.Inv.of_reset (wf_loadedMem (Vector.length_toList (xs := p.font)).le hfits) rfl rfl

end Sys2Proof.Machine
end

section
/-! SUPPORT. What LOAD leaves in memory and in every other piece of state (R24, R140). -/

namespace Sys2Proof.Machine

/-- Outside the font an address not listed reads as 0 (R24). -/
theorem Mem.unlisted_of_ge {a : Nat} (h : 0x50 ≤ a) : Mem.unlisted a = 0 := by
  rw [Mem.unlisted, List.getD_eq_default _ _ h]

section loadedMem

variable {font rom : List Byte} (hfont : font.length = 80) (hrom : rom.length ≤ 3584)
include hfont

/-- The font is read back: the ROM lies above it. -/
theorem Mem.read_loadedMem_font {k : Nat} (hk : k < font.length) : Mem.read (loadedMem font rom) k = font[k] := by
  rw [loadedMem, Mem.read_writeAll_outside rom _ _ (by simp only [Config.loadAddr]; omega)]
  have h := Mem.read_writeAll_inside font (m := []) (a := Config.fontBase) rfl
    (by simp only [Config.fontBase]; omega) hk
  rwa [Config.fontBase, Nat.zero_add] at h

/-- Outside the font and the ROM every byte is 0. -/
theorem Mem.read_loadedMem_outside {a : Nat} (hlo : 0x50 ≤ a) (ha : a < 0x200 ∨ 0x200 + rom.length ≤ a) :
    Mem.read (loadedMem font rom) a = 0 := by
  rw [loadedMem, Mem.read_writeAll_outside rom _ _ ha,
    Mem.read_writeAll_outside font _ _ (by simp only [Config.fontBase]; omega)]
  exact Mem.unlisted_of_ge hlo

include hrom

/-- The ROM is read back (R140). -/
theorem Mem.read_loadedMem_rom {k : Nat} (hk : k < rom.length) : Mem.read (loadedMem font rom) (0x200 + k) = rom[k] :=
  Mem.read_writeAll_inside rom (Mem.wf_writeAll font rfl (by simp only [Config.fontBase]; omega))
    (by simp only [Config.loadAddr]; omega) hk

end loadedMem

/-- A register of a file of zeros. -/
theorem State.getV_reset (r : Reg) : State.reset.getV r = 0 := by
  simp [State.getV, State.reset]

/-- Settles O52: every field but memory is reset's or the caller's setting, and memory is read font, gap, ROM, rest. -/
theorem loadLeavesResetValuesAndRom : Obligations.LoadLeavesResetValuesAndRom := by
  intro p rom hfits
  have hfont : p.font.toList.length = 80 := Vector.length_toList
  refine ⟨_, load_of_fits p hfits, State.getV_reset, rfl, rfl, rfl, ?stack, rfl, rfl, Display.pixel_clear, ?keys, rfl,
    rfl, rfl, rfl, rfl, rfl, ?font, ?gap, ?rom, ?rest⟩
  case stack => intro k; simp [State.reset]
  case keys => intro k; simp [State.reset]
  case font =>
    intro k
    exact Mem.read_loadedMem_font hfont (by omega)
  case gap => exact fun a hlo hhi => Mem.read_loadedMem_outside hfont hlo (.inl hhi)
  case rom => exact fun k hk => Mem.read_loadedMem_rom hfont hfits hk
  case rest => exact fun a ha => Mem.read_loadedMem_outside hfont (by omega) (.inr ha)

/-- Writing to the empty memory what is there already changes nothing. -/
theorem Mem.writeAll_nil_of_unlisted (bs : List Byte) :
    ∀ {a : Nat}, (∀ k (h : k < bs.length), bs[k] = Mem.unlisted (a + k)) → Mem.writeAll [] a bs = [] := by
  induction bs with
  | nil => intros; rfl
  | cons b bs ih =>
    intro a h
    have hb : b = Mem.unlisted a := h 0 (by simp)
    have hwrite : Mem.write [] a b = [] := if_pos hb
    rw [Mem.writeAll, hwrite]
    refine ih fun k hk => ?_
    rw [Nat.add_right_comm]
    exact h (k + 1) (Nat.succ_lt_succ hk)

/-- The default font is what the empty memory holds already. -/
theorem loadedMem_default : loadedMem Config.defaultFont [] = [] := by
  rw [loadedMem, Mem.writeAll]
  refine Mem.writeAll_nil_of_unlisted _ fun k hk => ?_
  rw [Nat.zero_add, Mem.unlisted, List.getD_eq_getElem _ _ hk]

/-- Settles O51: with the defaults LOAD stores what reset's memory holds already, and the values are reset's fields. -/
theorem resetLeavesTheseValues : Obligations.ResetLeavesTheseValues := by
  refine ⟨?load, State.getV_reset, rfl, rfl, rfl, rfl, rfl, rfl, Display.pixel_clear, ?keys, rfl, rfl, rfl,
    fun a => Mem.unlisted_of_ge⟩
  case load =>
    rw [load_of_fits Params.default (Nat.zero_le _)]
    exact congrArg (fun m => Except.ok { State.reset with mem := m }) loadedMem_default
  case keys => intro k; simp [State.reset]

/-- A machine that steps once to a state that does not run has RUN(1) tick that state. -/
theorem run_one {s t : State} (hs : s.mode = .running) (hstep : step s = .next t) : run 1 s = .next (tick t) :=
  run_of_runSteps (fun ⟨_, h⟩ => nomatch hs.symm.trans h) (runSteps_succ_running hs hstep)

/-- Settles O54: LOAD of the empty ROM is reset (O51), where the word at 0x200 is 0x0000 and is rejected. -/
theorem emptyRomHaltsOnUnknownOpcode : Obligations.EmptyRomHaltsOnUnknownOpcode := by
  have hstep : step State.reset = .next (State.reset.advance.raise .unknownOpcode) :=
    step_of_rejected (e := .zeroGroup) rfl (by decide) (by decide)
  exact ⟨_, _, resetLeavesTheseValues.1, run_one rfl hstep, rfl, rfl, rfl⟩

end Sys2Proof.Machine
end

section
/-! SUPPORT. TICK and KEY by the run state they meet, and schedules of TICKs (R127, R129). -/

namespace Sys2Proof.Machine

theorem tick_of_halted {s : State} (h : s.IsHalted) : tick s = s := by
  obtain ⟨r, hr⟩ := h
  simp only [tick, hr]

theorem tick_of_not_halted {s : State} (h : ¬s.IsHalted) :
    tick s = (s.setDT (countDown s.dt)).setST (countDown s.st) := by
  cases hm : s.mode with
  | running => simp only [tick, hm]
  | waitingForKey r => simp only [tick, hm]
  | halted r => exact absurd ⟨r, hm⟩ h

/-- A timer counts down and stops at 0 (R127). -/
theorem countDown_toNat (b : Byte) : (countDown b).toNat = b.toNat - 1 := by
  unfold countDown
  split
  · subst b
    rfl
  · rename_i hb
    have hlt := b.isLt
    have hne : b.toNat ≠ 0 := fun h => hb (BitVec.eq_of_toNat_eq h)
    rw [byte_sub_toNat]
    change (b.toNat + 256 - 1) % 256 = _
    omega

/-- Settles O42: a TICK is the identity in `Halted`, elsewhere the write of both timers counted down. -/
theorem tickCountsTimersDown : Obligations.TickCountsTimersDown := by
  refine fun s => ⟨tick_of_halted, fun h => ?_⟩
  rw [tick_of_not_halted h]
  exact ⟨countDown_toNat s.dt, countDown_toNat s.st, rfl, fun _ => rfl⟩

/-- A TICK does not enter or leave `Halted`. -/
theorem isHalted_tick {s : State} : (tick s).IsHalted ↔ s.IsHalted := by
  simp only [State.IsHalted, tick_mode]

/-- Settles O43, by induction on the TICKs: the first takes one from each timer and leaves the run state (O42). -/
theorem timersReachZeroAndStay : Obligations.TimersReachZeroAndStay := by
  intro n
  induction n with
  | zero => exact fun s _ => ⟨s, rfl, rfl, rfl, rfl, s.buzz_iff⟩
  | succ n ih =>
    intro s hs
    obtain ⟨hdt, hst, -⟩ := (tickCountsTimersDown s).2 hs
    obtain ⟨t, hrun, htdt, htst, htmode, htbuzz⟩ := ih (tick s) (isHalted_tick.not.2 hs)
    refine ⟨t, (events_cons rfl).trans hrun, by omega, by omega, htmode.trans (tick_mode s), ?_⟩
    rw [htbuzz]
    omega

/-- KEY sets one key in every run state (R129). -/
theorem key_keys (c : Key) (p : Bool) (s : State) : (key c p s).keys = s.keys.set c p := by
  unfold key State.endWait
  split
  · split <;> rfl
  · rfl

/-- KEY sets the key and nothing else unless it is a press in a key wait (R129). -/
theorem key_of_no_wait {s : State} {p : Bool} (h : ¬s.Waiting ∨ p = false) (c : Key) : key c p s = s.setKey c p := by
  cases p with
  | false => exact key_release c s
  | true =>
    have hnot : ¬s.Waiting := h.resolve_right (by decide)
    unfold key State.endWait
    rw [if_pos rfl]
    split
    · exact absurd ⟨_, ‹_›⟩ hnot
    · rfl
    · rfl

/-- Settles O44: KEY sets one key and no memory; a press in a wait also writes the code and resumes, anything else
does not. -/
theorem keyEventSetsOneKey : Obligations.KeyEventSetsOneKey := by
  intro c p s
  refine ⟨?key, fun k hk => ?others, ?bytes, fun r hr hp => ?press, fun h => ?frame⟩
  case key => simp [key_keys]
  case others =>
    have hne : c.val ≠ k.val := fun h => hk (Fin.ext h.symm)
    simp [key_keys, hne]
  case bytes => exact fun a => State.byteAt_congr (by rw [key_eq]) a
  case press =>
    subst hp
    rw [key_press_of_waiting hr]
    refine ⟨?_, s.sameRegsBut_setV r (keyByte c), rfl⟩
    rw [State.getV_setMode, State.getV_setV_same, keyByte_toNat]
  case frame => rw [key_of_no_wait h]; rfl

end Sys2Proof.Machine
end

section
/-! SUPPORT. What an event can do to a halted and to a waiting machine, and so a schedule (R122, R130). -/

namespace Sys2Proof.Machine

/-- Only KEY changes a halted machine, and of it only one key (R122, R129). -/
theorem event_of_halted {s : State} {r : FaultReason} (h : s.mode = .halted r) (e : Event) :
    event e s = .next s ∨ ∃ c p, e = .key c p ∧ event e s = .next (s.setKey c p) := by
  cases e with
  | step => exact .inl (step_of_not_running (by simp [h]))
  | tick => exact .inl (congrArg _ (tick_of_halted ⟨r, h⟩))
  | run m => exact .inl (run_of_halted h m)
  | key c p =>
    have hnot : ¬s.Waiting := fun ⟨_, hw⟩ => nomatch h.symm.trans hw
    exact .inr ⟨c, p, rfl, congrArg _ (key_of_no_wait (.inl hnot) c)⟩

/-- The states that differ from `s` in the keys alone. -/
def SameButKeys (s t : State) : Prop := ∃ keys, t = { s with keys := keys }

/-- A schedule changes of a halted machine the keys alone, since a machine that differs in them is halted too. -/
theorem events_of_halted {s : State} {r : FaultReason} (h : s.mode = .halted r) (es : List Event) :
    ∃ t, events es s = .next t ∧ SameButKeys s t := by
  refine events_keeps es (fun e _ u hu => ?_) ⟨s.keys, rfl⟩
  obtain ⟨keys, rfl⟩ := hu
  rcases event_of_halted (s := { s with keys := keys }) h e with hev | ⟨c, p, -, hev⟩
  · exact ⟨_, hev, keys, rfl⟩
  · exact ⟨_, hev, _, rfl⟩

/-- A schedule without a KEY leaves a halted machine as it is. -/
theorem events_of_halted_of_no_key {s : State} {r : FaultReason} (h : s.mode = .halted r) {es : List Event}
    (hes : ∀ e ∈ es, ∀ c p, e ≠ .key c p) : events es s = .next s := by
  refine events_fixed fun e he => ?_
  rcases event_of_halted h e with hev | ⟨c, p, hkey, -⟩
  · exact hev
  · exact absurd hkey (hes e he c p)

/-- Settles O45: a schedule changes the keys alone, which no output reads, and without a KEY it changes nothing. -/
theorem haltedIsTerminal : Obligations.HaltedIsTerminal := by
  intro es s r hs
  obtain ⟨t, hrun, keys, rfl⟩ := events_of_halted hs es
  refine ⟨_, hrun, rfl, (State.halted_iff _).2 ⟨r, hs⟩, (State.haltReason_eq_some_iff _ r).2 hs, fun hno => ?_⟩
  exact Host.Outcome.next.inj (hrun.symm.trans (events_of_halted_of_no_key hs hno))

theorem not_isHalted_of_waiting {s : State} {r : Reg} (h : s.mode = .waitingForKey r) : ¬s.IsHalted :=
  fun ⟨_, hr⟩ => nomatch h.symm.trans hr

/-- The states that differ from `s` in the timers and the keys alone. -/
def SameButTimersAndKeys (s t : State) : Prop := ∃ dt st keys, t = { s with dt := dt, st := st, keys := keys }

/-- A TICK changes the timers alone. -/
theorem sameButTimersAndKeys_tick (s : State) : SameButTimersAndKeys s (tick s) := ⟨_, _, _, tick_eq s⟩

/-- An event that is no press changes of a waiting machine the timers and the keys alone (R60, R127, R130, R131). -/
theorem event_of_waiting {s : State} {r : Reg} (h : s.mode = .waitingForKey r) {e : Event} (he : e.noPress = true) :
    ∃ t, event e s = .next t ∧ SameButTimersAndKeys s t := by
  have hidle : s.mode ≠ .running := by simp [h]
  cases e with
  | step => exact ⟨s, step_of_not_running hidle, _, _, _, rfl⟩
  | tick => exact ⟨_, rfl, sameButTimersAndKeys_tick s⟩
  | run m => exact ⟨_, run_of_runSteps (not_isHalted_of_waiting h) (runSteps_idle hidle), sameButTimersAndKeys_tick s⟩
  | key c p =>
    cases p with
    | false => exact ⟨_, rfl, _, _, _, rfl⟩
    | true => cases he

/-- Settles O46: every event of such a schedule changes the timers and the keys alone, and a machine that differs in
them is waiting too. -/
theorem keyWaitLastsUntilPress : Obligations.KeyWaitLastsUntilPress := by
  rintro es s ⟨r, hr⟩ hes
  have hkeep : ∀ e ∈ es, ∀ u, SameButTimersAndKeys s u → ∃ t, event e u = .next t ∧ SameButTimersAndKeys s t := by
    rintro e he _ ⟨dt, st, keys, rfl⟩
    obtain ⟨_, hev, dt', st', keys', rfl⟩ :=
      event_of_waiting (s := { s with dt := dt, st := st, keys := keys }) hr (hes e he)
    exact ⟨_, hev, dt', st', keys', rfl⟩
  obtain ⟨_, hrun, dt, st, keys, rfl⟩ := events_keeps es hkeep ⟨s.dt, s.st, s.keys, rfl⟩
  exact ⟨_, hrun, rfl, State.halted_of_waiting hr⟩

end Sys2Proof.Machine
end

section
/-! SUPPORT. A RUN taken apart into STEPs (R131), and a machine that STEPs to itself (R148). -/

namespace Sys2Proof.Machine

/-- The STEPs of a RUN as a schedule of STEPs, each from a running machine, and as many as asked for unless the machine
stops running. -/
theorem runSteps_eq_events (m : Nat) : ∀ s, ∃ k t, k ≤ m ∧ events (List.replicate k .step) s = .next t ∧
    runSteps m s = .next t ∧ (k = m ∨ t.mode ≠ .running) ∧
    ∀ j u, j < k → events (List.replicate j .step) s = .next u → u.mode = .running := by
  induction m with
  | zero => exact fun s => ⟨0, s, le_rfl, rfl, rfl, .inl rfl, fun j u hj => absurd hj (Nat.not_lt_zero j)⟩
  | succ m ih =>
    intro s
    by_cases hm : s.mode = .running
    case neg => exact ⟨0, s, Nat.zero_le _, rfl, runSteps_idle hm, .inr hm, fun j u hj => absurd hj (Nat.not_lt_zero j)⟩
    case pos =>
      obtain ⟨t, ht⟩ := stepAlwaysAnswersNext s
      obtain ⟨k, u, hk, hevents, hruns, hstop, hrunning⟩ := ih t
      have hcons : ∀ es, events (.step :: es) s = events es t := fun es => events_cons ht
      refine ⟨k + 1, u, by omega, (hcons _).trans hevents, (runSteps_succ_running hm ht).trans hruns,
        hstop.imp_left (congrArg _), fun j w hj hw => ?_⟩
      cases j with
      | zero =>
        cases hw
        exact hm
      | succ j => exact hrunning j w (by omega) ((hcons _).symm.trans hw)

/-- Settles O47: a RUN of a machine that is not halted is its STEPs, a schedule of them, and then a TICK. -/
theorem runIsStepsThenOneTick : Obligations.RunIsStepsThenOneTick := by
  refine fun m s => ⟨fun ⟨r, hr⟩ => run_of_halted hr m, fun hs => ?_⟩
  obtain ⟨k, t, hk, hevents, hruns, hstop, hrunning⟩ := runSteps_eq_events m.toNat s
  exact ⟨k, t, hk, hevents, run_of_runSteps hs hruns, hstop, hrunning⟩

/-- The word of a jump to `pc`, where `pc` is an address of memory (R148). -/
theorem jump_word_eq {w : Word} (h : w.toNat < 4096) : (0x1000 : Word) ||| w = encode (.jp (nnnField w)) := by
  apply BitVec.eq_of_toNat_eq
  have hor := Nat.two_pow_add_eq_or_of_lt (i := 12) h 1
  rw [encode, wordNNN_toNat, nnnField_toNat, BitVec.toNat_or, Nat.mod_eq_of_lt h]
  exact hor.symm

theorem addrOf_nnnField {w : Word} (h : w.toNat < 4096) : addrOf (nnnField w) = w :=
  BitVec.eq_of_toNat_eq (by rw [addrOf_toNat, nnnField_toNat, Nat.mod_eq_of_lt h])

/-- A STEP of a spinning machine goes back to where it was (R148). -/
theorem step_of_spinning {s : State} (h : s.Spinning) : step s = .next s := by
  obtain ⟨hm, hp, hw⟩ := h
  have hpc : s.pc.toNat < 4096 := Nat.lt_of_succ_lt hp
  rw [jump_word_eq hpc] at hw
  rw [step_of_decoded hm hp (hw ▸ decodeEncodeAllInstructions _), exec_jp, addrOf_nnnField hpc]
  rfl

/-- Settles O59: every STEP of the schedule leaves the machine as it is. -/
theorem spinningIsAFixedPoint : Obligations.SpinningIsAFixedPoint := by
  refine fun n s hs => events_fixed fun e he => ?_
  obtain rfl := List.eq_of_mem_replicate he
  exact step_of_spinning hs

end Sys2Proof.Machine
end

section
/-! SUPPORT. One drawing: its pixels, its flag and what it leaves alone (R112, R113). -/

namespace Sys2Proof.Machine

/-- The state after a `DRW` whose bytes all lie in memory. -/
def State.drawn (s : State) (x y : Reg) (n : Rows) : State :=
  (s.setDisp (s.blit x y n.val).1).setFlag (s.blit x y n.val).2

theorem exec_drw_of_inRange {s : State} {n : Rows} (h : n.val = 0 ∨ s.i.toNat + n.val ≤ 4096) (x y : Reg) :
    exec (.drw x y n) s = .next (s.drawn x y n) :=
  exec_of_inRange (exec_drw x y n s) h

section drawn

variable (s : State) (x y : Reg) (n : Rows)

/-- A drawing toggles the pixels its sprite covers. -/
theorem State.pixel_drawn {py px : Nat} (hy : py < 32) (hx : px < 64) :
    (s.drawn x y n).disp.pixel py px = (s.disp.pixel py px ^^ s.spriteCovers x y n py px) :=
  (s.blit_spec x y n).1 py px hy hx

theorem State.getV_drawn_vf : (s.drawn x y n).getV 15 = flagByte (s.blit x y n.val).2 := State.getV_setV_same _ _ _

theorem State.getV_drawn_vf_cases : (s.drawn x y n).getV 15 = 0 ∨ (s.drawn x y n).getV 15 = 1 := by
  rw [State.getV_drawn_vf]
  exact flagByte_cases _

/-- A drawing writes no register but VF. -/
theorem State.sameRegsBut_drawn : SameRegsBut [15] s (s.drawn x y n) :=
  (s.setDisp (s.blit x y n.val).1).sameRegsBut_setV 15 _

/-- The flag is 1 exactly when the sprite covers a pixel of the display that was lit. -/
theorem State.getV_drawn_vf_eq_one_iff : (s.drawn x y n).getV 15 = 1 ↔
    ∃ py px, py < 32 ∧ px < 64 ∧ s.disp.pixel py px = true ∧ s.spriteCovers x y n py px = true := by
  have hflag : ∀ f : Bool, flagByte f = 1 ↔ f = true := by decide
  rw [State.getV_drawn_vf, hflag, (s.blit_spec x y n).2]
  constructor
  · rintro ⟨py, px, hlit, hcov⟩
    by_cases hin : py < 32 ∧ px < 64
    · exact ⟨py, px, hin.1, hin.2, hlit, hcov⟩
    · rw [Display.pixel_outside _ hin] at hlit
      cases hlit
  · rintro ⟨py, px, -, -, hlit, hcov⟩
    exact ⟨py, px, hlit, hcov⟩

/-- A lit pixel is off after a drawing exactly when the sprite covers it. -/
theorem State.lit_and_off_drawn_iff {py px : Nat} (hy : py < 32) (hx : px < 64) :
    s.disp.pixel py px = true ∧ (s.drawn x y n).disp.pixel py px = false ↔
      s.disp.pixel py px = true ∧ s.spriteCovers x y n py px = true := by
  rw [s.pixel_drawn x y n hy hx]
  refine and_congr_right fun hlit => ?_
  rw [hlit, Bool.true_xor, Bool.not_eq_false']

end drawn

/-- Settles O38: in range the drawing toggles what the sprite covers, and a lit pixel is off afterwards exactly when it
is covered, which is what the flag reports; out of range the fault is entered. -/
theorem drawTogglesCoveredPixels : Obligations.DrawTogglesCoveredPixels := by
  refine fun x y n s => ⟨fun hin => ?drawn, fun hn hout => faults_of_exec (exec_drw x y n s) (by omega)⟩
  case drawn =>
    refine ⟨_, exec_drw_of_inRange (by omega) x y, fun py px => s.pixel_drawn x y n, ?flag, ?collision,
      s.sameRegsBut_drawn x y n, rfl, fun _ => rfl⟩
    case flag => exact s.getV_drawn_vf_cases x y n
    case collision =>
      rw [State.getV_drawn_vf_eq_one_iff]
      refine exists_congr fun py => exists_congr fun px => and_congr_right fun hy => and_congr_right fun hx => ?_
      exact (s.lit_and_off_drawn_iff x y n hy hx).symm

/-- What a sprite covers depends on its two coordinates, `I` and memory. -/
theorem State.spriteCovers_congr {s t : State} {x y : Reg} (hx : t.getV x = s.getV x) (hy : t.getV y = s.getV y)
    (hi : t.i = s.i) (hmem : t.mem = s.mem) (n : Rows) : t.spriteCovers x y n = s.spriteCovers x y n := by
  funext py px
  simp only [State.spriteCovers, hx, hy, hi, State.byteAt_congr hmem]

/-- A drawing with coordinates outside VF leaves what the same sprite covers. -/
theorem State.spriteCovers_drawn (s : State) {x y : Reg} (hx : x ≠ 15) (hy : y ≠ 15) (n : Rows) :
    (s.drawn x y n).spriteCovers x y n = s.spriteCovers x y n :=
  State.spriteCovers_congr (s.sameRegsBut_drawn x y n x (by simpa using hx))
    (s.sameRegsBut_drawn x y n y (by simpa using hy)) rfl rfl n

/-- Settles O39: the second drawing toggles the same pixels back; on a clear display no pixel is lit before the first,
and before the second the lit ones are those the sprite covers. -/
theorem drawingTwiceRestoresDisplay : Obligations.DrawingTwiceRestoresDisplay := by
  intro x y n s t u hx hy hin ht hu
  obtain rfl := Host.Outcome.next.inj ((exec_drw_of_inRange hin x y).symm.trans ht)
  obtain rfl := Host.Outcome.next.inj ((exec_drw_of_inRange (s := s.drawn x y n) hin x y).symm.trans hu)
  have hcov := s.spriteCovers_drawn hx hy n
  refine ⟨Display.ext_pixel fun py px => ?_, fun hclear => ⟨?first, ?second⟩⟩
  · by_cases hpix : py < 32 ∧ px < 64
    · rw [State.pixel_drawn _ x y n hpix.1 hpix.2, State.pixel_drawn s x y n hpix.1 hpix.2, hcov, Bool.xor_assoc,
        Bool.xor_self, Bool.xor_false]
    · rw [Display.pixel_outside _ hpix, Display.pixel_outside _ hpix]
  case first =>
    refine (s.getV_drawn_vf_cases x y n).resolve_right fun hone => ?_
    obtain ⟨py, px, -, -, hlit, -⟩ := (s.getV_drawn_vf_eq_one_iff x y n).1 hone
    rw [hclear, Display.pixel_clear] at hlit
    cases hlit
  case second =>
    rw [State.getV_drawn_vf_eq_one_iff, hcov]
    refine exists_congr fun py => exists_congr fun px => and_congr_right fun hy => and_congr_right fun hx => ?_
    rw [s.pixel_drawn x y n hy hx, hclear, Display.pixel_clear, Bool.false_xor, and_self]

end Sys2Proof.Machine
end

section
/-! SUPPORT. The read-out of the display, byte by byte (R114). -/

namespace Sys2Proof.Machine

/-- A row of the display reads out as 256 bytes. -/
theorem length_renderRow (off on : Colour) (row : Vector Bool 64) :
    (row.toList.flatMap (pixelBytes off on)).length = 256 := by
  rw [length_flatMap_uniform _ (length_pixelBytes off on), Vector.length_toList]

theorem State.length_render (s : State) (off on : Colour) : (s.render off on).length = 8192 := by
  rw [State.render, length_flatMap_uniform _ (length_renderRow off on), Vector.length_toList]

/-- Four bytes a pixel, 64 pixels a row: where the bytes of a pixel stand in the read-out. -/
theorem State.getElem?_render (s : State) (off on : Colour) {py px j : Nat} (hy : py < 32) (hx : px < 64) (hj : j < 4) :
    (s.render off on)[(py * 64 + px) * 4 + j]? = (pixelBytes off on (s.disp.pixel py px))[j]? := by
  have hplace : (py * 64 + px) * 4 + j = py * 256 + (px * 4 + j) := by omega
  have hrow : s.disp.toList[py]? = some s.disp[py] := by simp [hy]
  have hpix : s.disp[py].toList[px]? = some s.disp[py][px] := by simp [hx]
  rw [hplace, State.render, getElem?_flatMap_uniform _ (length_renderRow off on) _ py (by omega), hrow,
    Option.bind_some, getElem?_flatMap_uniform _ (length_pixelBytes off on) _ px hj, hpix, Option.bind_some,
    Display.pixel_inside _ hy hx]

/-- Settles O40: the four bytes of a pixel are those of its colour and 255, and rows and pixels stand one after
another. -/
theorem renderLaysOutPixels : Obligations.RenderLaysOutPixels := by
  intro s off on
  refine ⟨s.length_render off on, fun py px hy hx => ?_⟩
  have hbyte : ∀ j, j < 4 → (s.render off on)[(py * 64 + px) * 4 + j]? = _ := fun _ => s.getElem?_render off on hy hx
  exact ⟨hbyte 0 (by decide), hbyte 1 (by decide), hbyte 2 (by decide), hbyte 3 (by decide)⟩

/-- Different colours have different bytes (R114). -/
theorem pixelBytes_injective {off on : Colour} (h : off ≠ on) : Function.Injective (pixelBytes off on) := by
  have hne : pixelBytes off on false ≠ pixelBytes off on true := by
    intro heq
    simp only [pixelBytes, Bool.false_eq_true, if_false, if_true, List.cons.injEq, and_true] at heq
    obtain ⟨hred, hgreen, hblue⟩ := heq
    exact h (by cases off; cases on; simp_all)
  intro a b hab
  cases a with
  | false =>
    cases b with
    | false => rfl
    | true => exact absurd hab hne
  | true =>
    cases b with
    | false => exact absurd hab.symm hne
    | true => rfl

/-- Settles O41: equal read-outs have equal bytes for every pixel, and in two colours the bytes tell whether it is
lit. -/
theorem renderDeterminesDisplay : Obligations.RenderDeterminesDisplay := by
  intro s t off on hne hrender
  refine Display.ext_pixel fun py px => ?_
  by_cases hpix : py < 32 ∧ px < 64
  · refine pixelBytes_injective hne (List.ext_getElem? fun j => ?_)
    rcases Nat.lt_or_ge j 4 with hj | hj
    · rw [← s.getElem?_render off on hpix.1 hpix.2 hj, ← t.getElem?_render off on hpix.1 hpix.2 hj, hrender]
    · rw [List.getElem?_eq_none (by simpa using hj), List.getElem?_eq_none (by simpa using hj)]
  · rw [Display.pixel_outside _ hpix, Display.pixel_outside _ hpix]

end Sys2Proof.Machine
end
